-- ==== Sys2Proof/Word.lean ====
section
/-! DEFINITION. The word types of the core (`spec/00_scope.md` R8, R9): every value is an unsigned bit string
of a fixed width. -/

namespace Sys2Proof

/-- A byte: a general register, a timer, a keypad slot, a byte of memory. -/
abbrev Byte := BitVec 8

/-- A 16-bit word: I, PC, a return address, an instruction word. -/
abbrev Word := BitVec 16

/-- A stored framebuffer pixel: 32 bits (R8, R30). -/
abbrev Pixel := BitVec 32

/-- A general register number, and a keypad key number, 0..15 (R20, R29, R63). -/
abbrev Reg := Fin 16

end Sys2Proof
end

