-- ==== Sys2Proof/Syntax.lean ====
section
/-! DEFINITION. The 34 instructions, one constructor per row of `spec/opcode_table.json`
(`spec/30_encoding.md` R66), in the table's order. Operands are those of R63; a field a row does not examine
is no operand. -/

namespace Sys2Proof

/-- An instruction. `x`, `y` are register numbers, `kk` an 8-bit immediate, `nnn` a 12-bit address, `n` the number of
sprite rows (a count, checked by `Instr.wf` to be at most 15). -/
inductive Instr where
  /-- 00E0 CLS (R120). -/
  | cls
  /-- 00EE RET (R80). -/
  | ret
  /-- 1nnn JP nnn (R81). -/
  | jp (nnn : BitVec 12)
  /-- 2nnn CALL nnn (R82). -/
  | call (nnn : BitVec 12)
  /-- 3xkk SE Vx, kk (R83). -/
  | seImm (x : Reg) (kk : Byte)
  /-- 4xkk SNE Vx, kk (R84). -/
  | sneImm (x : Reg) (kk : Byte)
  /-- 5xy0 SE Vx, Vy (R85). -/
  | seReg (x y : Reg)
  /-- 6xkk LD Vx, kk (R90). -/
  | ldImm (x : Reg) (kk : Byte)
  /-- 7xkk ADD Vx, kk (R91). -/
  | addImm (x : Reg) (kk : Byte)
  /-- 8xy0 LD Vx, Vy (R92). -/
  | ldReg (x y : Reg)
  /-- 8xy1 OR Vx, Vy (R93). -/
  | orReg (x y : Reg)
  /-- 8xy2 AND Vx, Vy (R94). -/
  | andReg (x y : Reg)
  /-- 8xy3 XOR Vx, Vy (R95). -/
  | xorReg (x y : Reg)
  /-- 8xy4 ADD Vx, Vy (R96). -/
  | addReg (x y : Reg)
  /-- 8xy5 SUB Vx, Vy (R97). -/
  | subReg (x y : Reg)
  /-- 8xy6 SHR Vx (R98); `y` is decoded and not read. -/
  | shr (x y : Reg)
  /-- 8xy7 SUBN Vx, Vy (R99). -/
  | subnReg (x y : Reg)
  /-- 8xyE SHL Vx (R100); `y` is decoded and not read. -/
  | shl (x y : Reg)
  /-- 9xy0 SNE Vx, Vy (R86). -/
  | sneReg (x y : Reg)
  /-- Annn LD I, nnn (R110). -/
  | ldI (nnn : BitVec 12)
  /-- Bnnn JP V0, nnn (R87). -/
  | jpV0 (nnn : BitVec 12)
  /-- Cxkk RND Vx, kk (R101). -/
  | rnd (x : Reg) (kk : Byte)
  /-- Dxyn DRW Vx, Vy, n (R121). -/
  | drw (x y : Reg) (n : Nat)
  /-- Ex9E SKP Vx (R130). -/
  | skp (x : Reg)
  /-- ExA1 SKNP Vx (R131). -/
  | sknp (x : Reg)
  /-- Fx07 LD Vx, DT (R132). -/
  | getDt (x : Reg)
  /-- Fx0A LD Vx, K (R133). -/
  | waitKey (x : Reg)
  /-- Fx15 LD DT, Vx (R134). -/
  | setDt (x : Reg)
  /-- Fx18 LD ST, Vx (R135). -/
  | setSt (x : Reg)
  /-- Fx1E ADD I, Vx (R111). -/
  | addI (x : Reg)
  /-- Fx29 LD F, Vx (R112). -/
  | ldFont (x : Reg)
  /-- Fx33 LD B, Vx (R113). -/
  | storeBcd (x : Reg)
  /-- Fx55 LD [I], Vx (R114). -/
  | storeRegs (x : Reg)
  /-- Fx65 LD Vx, [I] (R115). -/
  | loadRegs (x : Reg)
  deriving DecidableEq, Repr

end Sys2Proof
end

