-- ==== Sys2Proof/WellFormed.lean ====
section
/-! DEFINITION. Which instructions are well formed. Register numbers, immediates and addresses carry their width in
their type; the sprite row count of DRW is a number and is checked (`spec/30_encoding.md` R63: "`n` is a 4-bit count,
0..15"). -/

namespace Sys2Proof

/-- The instruction has an encoding: its row count, where it has one, fits 4 bits. -/
def Instr.wf : Instr → Bool
  | .drw _ _ n => decide (n ≤ 15)
  | .cls | .ret | .jp _ | .call _ | .seImm _ _ | .sneImm _ _ | .seReg _ _ | .ldImm _ _ | .addImm _ _
  | .ldReg _ _ | .orReg _ _ | .andReg _ _ | .xorReg _ _ | .addReg _ _ | .subReg _ _ | .shr _ _
  | .subnReg _ _ | .shl _ _ | .sneReg _ _ | .ldI _ | .jpV0 _ | .rnd _ _ | .skp _ | .sknp _ | .getDt _
  | .waitKey _ | .setDt _ | .setSt _ | .addI _ | .ldFont _ | .storeBcd _ | .storeRegs _ | .loadRegs _ => true

end Sys2Proof
end

