-- ==== Sys2Proof/Decode.lean ====
section
/-! DEFINITION. The decoder, total on any 16-bit word and on any bytes, rejecting by name; after it the encoder and the
opcode map of `spec/30_encoding.md` R66 as a table. -/

namespace Sys2Proof

/-! ## Fields (`spec/00_scope.md` R10, `spec/30_encoding.md` R60, R63) -/

/-- The family, op[15:12]. -/
def familyOf (w : Word) : BitVec 4 := w.extractLsb' 12 4

/-- The register number x, op[11:8]. -/
def xOf (w : Word) : Reg := (w.extractLsb' 8 4).toFin

/-- The register number y, op[7:4]. -/
def yOf (w : Word) : Reg := (w.extractLsb' 4 4).toFin

/-- The 8-bit immediate kk, op[7:0]; also the second-level key of families 0, E and F. -/
def kkOf (w : Word) : Byte := w.extractLsb' 0 8

/-- The 12-bit address nnn, op[11:0]. -/
def nnnOf (w : Word) : BitVec 12 := w.extractLsb' 0 12

/-- The 4-bit count n, op[3:0]; also the second-level key of family 8. -/
def nOf (w : Word) : BitVec 4 := w.extractLsb' 0 4

/-- The word a fetch combines from two bytes, the one at the lower address high (`spec/20_memory.md` R45). -/
def wordOfBytes (hi lo : Byte) : Word := hi ++ lo

/-! ## Decoding -/

/-- Why a word is no instruction: which family's key matches no row (R67), or fewer than two bytes are left. -/
inductive DecodeError where
  /-- Family 0x0 with a low byte other than E0 and EE. -/
  | family0 (key : Byte)
  /-- Family 0x8 with a low nibble of 8..D or F. -/
  | family8 (key : BitVec 4)
  /-- Family 0xE with a low byte other than 9E and A1. -/
  | familyE (key : Byte)
  /-- Family 0xF with a low byte that selects no row. -/
  | familyF (key : Byte)
  /-- A byte list with fewer than the two bytes of every instruction (R69). -/
  | truncated
  deriving DecidableEq, Repr

/-- Level 2 of family 0x0: the low byte, op[11:8] not examined (R65). -/
def decode0 (w : Word) : Except DecodeError Instr :=
  match (kkOf w).toNat with
  | 0xE0 => .ok .cls
  | 0xEE => .ok .ret
  | _ => .error (.family0 (kkOf w))

/-- Level 2 of family 0x8: the low nibble (R65, R66). -/
def decode8 (w : Word) : Except DecodeError Instr :=
  match (nOf w).toNat with
  | 0x0 => .ok (.ldReg (xOf w) (yOf w))
  | 0x1 => .ok (.orReg (xOf w) (yOf w))
  | 0x2 => .ok (.andReg (xOf w) (yOf w))
  | 0x3 => .ok (.xorReg (xOf w) (yOf w))
  | 0x4 => .ok (.addReg (xOf w) (yOf w))
  | 0x5 => .ok (.subReg (xOf w) (yOf w))
  | 0x6 => .ok (.shr (xOf w) (yOf w))
  | 0x7 => .ok (.subnReg (xOf w) (yOf w))
  | 0xE => .ok (.shl (xOf w) (yOf w))
  | _ => .error (.family8 (nOf w))

/-- Level 2 of family 0xE: the low byte (R65). -/
def decodeE (w : Word) : Except DecodeError Instr :=
  match (kkOf w).toNat with
  | 0x9E => .ok (.skp (xOf w))
  | 0xA1 => .ok (.sknp (xOf w))
  | _ => .error (.familyE (kkOf w))

/-- Level 2 of family 0xF: the low byte (R65). -/
def decodeF (w : Word) : Except DecodeError Instr :=
  match (kkOf w).toNat with
  | 0x07 => .ok (.getDt (xOf w))
  | 0x0A => .ok (.waitKey (xOf w))
  | 0x15 => .ok (.setDt (xOf w))
  | 0x18 => .ok (.setSt (xOf w))
  | 0x1E => .ok (.addI (xOf w))
  | 0x29 => .ok (.ldFont (xOf w))
  | 0x33 => .ok (.storeBcd (xOf w))
  | 0x55 => .ok (.storeRegs (xOf w))
  | 0x65 => .ok (.loadRegs (xOf w))
  | _ => .error (.familyF (kkOf w))

/-- Level 1: the top nibble selects the family; families 1-7, 9 and A-D hold one instruction each and examine nothing
more (R64). The last arm is family 0xF. -/
def decode (w : Word) : Except DecodeError Instr :=
  match (familyOf w).toNat with
  | 0x0 => decode0 w
  | 0x1 => .ok (.jp (nnnOf w))
  | 0x2 => .ok (.call (nnnOf w))
  | 0x3 => .ok (.seImm (xOf w) (kkOf w))
  | 0x4 => .ok (.sneImm (xOf w) (kkOf w))
  | 0x5 => .ok (.seReg (xOf w) (yOf w))
  | 0x6 => .ok (.ldImm (xOf w) (kkOf w))
  | 0x7 => .ok (.addImm (xOf w) (kkOf w))
  | 0x8 => decode8 w
  | 0x9 => .ok (.sneReg (xOf w) (yOf w))
  | 0xA => .ok (.ldI (nnnOf w))
  | 0xB => .ok (.jpV0 (nnnOf w))
  | 0xC => .ok (.rnd (xOf w) (kkOf w))
  | 0xD => .ok (.drw (xOf w) (yOf w) (nOf w).toNat)
  | 0xE => decodeE w
  | _ => decodeF w

/-- The decoder on bytes as memory holds them: two bytes, the first one high, and the rest (R45, R69). -/
def decodeBytes : List Byte → Except DecodeError (Instr × List Byte)
  | hi :: lo :: rest => (decode (wordOfBytes hi lo)).map (·, rest)
  | [_] => .error .truncated
  | [] => .error .truncated

/-- The two bytes of a word as memory holds them, the high byte first (R45). -/
def bytesOfWord (w : Word) : List Byte := [w.extractLsb' 8 8, w.extractLsb' 0 8]

/-- The word that an opcode-table row's bits give: bit 0 the least significant, the bits above `nbits` zero. -/
def tableWord (nbits w : Nat) : Word := BitVec.ofNat 16 (w % 2 ^ nbits)

/-- The instruction the decoder reads from an opcode-table word laid out in memory. -/
def decodeTableWord (nbits w : Nat) : Option Instr :=
  match decodeBytes (bytesOfWord (tableWord nbits w)) with
  | .ok (i, _) => some i
  | .error _ => none

/-! ## Encoding -/

/-- A register number as its 4-bit field. -/
def regField (r : Reg) : BitVec 4 := BitVec.ofNat 4 r.val

/-- family : nnn -/
def packNnn (family : BitVec 4) (nnn : BitVec 12) : Word := family ++ nnn

/-- family : x : kk -/
def packXkk (family : BitVec 4) (x : Reg) (kk : Byte) : Word := family ++ (regField x ++ kk)

/-- family : x : y : n -/
def packXyn (family : BitVec 4) (x y : Reg) (n : BitVec 4) : Word := family ++ (regField x ++ (regField y ++ n))

/-- The word of an instruction (R66); bits its row does not examine are 0 (log 9). -/
def encode : Instr → Word
  | .cls => packXkk 0x0 0 0xE0
  | .ret => packXkk 0x0 0 0xEE
  | .jp nnn => packNnn 0x1 nnn
  | .call nnn => packNnn 0x2 nnn
  | .seImm x kk => packXkk 0x3 x kk
  | .sneImm x kk => packXkk 0x4 x kk
  | .seReg x y => packXyn 0x5 x y 0x0
  | .ldImm x kk => packXkk 0x6 x kk
  | .addImm x kk => packXkk 0x7 x kk
  | .ldReg x y => packXyn 0x8 x y 0x0
  | .orReg x y => packXyn 0x8 x y 0x1
  | .andReg x y => packXyn 0x8 x y 0x2
  | .xorReg x y => packXyn 0x8 x y 0x3
  | .addReg x y => packXyn 0x8 x y 0x4
  | .subReg x y => packXyn 0x8 x y 0x5
  | .shr x y => packXyn 0x8 x y 0x6
  | .subnReg x y => packXyn 0x8 x y 0x7
  | .shl x y => packXyn 0x8 x y 0xE
  | .sneReg x y => packXyn 0x9 x y 0x0
  | .ldI nnn => packNnn 0xA nnn
  | .jpV0 nnn => packNnn 0xB nnn
  | .rnd x kk => packXkk 0xC x kk
  | .drw x y n => packXyn 0xD x y (BitVec.ofNat 4 n)
  | .skp x => packXkk 0xE x 0x9E
  | .sknp x => packXkk 0xE x 0xA1
  | .getDt x => packXkk 0xF x 0x07
  | .waitKey x => packXkk 0xF x 0x0A
  | .setDt x => packXkk 0xF x 0x15
  | .setSt x => packXkk 0xF x 0x18
  | .addI x => packXkk 0xF x 0x1E
  | .ldFont x => packXkk 0xF x 0x29
  | .storeBcd x => packXkk 0xF x 0x33
  | .storeRegs x => packXkk 0xF x 0x55
  | .loadRegs x => packXkk 0xF x 0x65

/-! ## The opcode map as a table (R66) -/

/-- One row of the opcode map: a word selects it when `(w & mask) == value`. -/
structure Row where
  mask : Word
  value : Word
  deriving DecidableEq, Repr

/-- The word selects the row. -/
def Row.selectedBy (r : Row) (w : Word) : Bool := w &&& r.mask == r.value

/-- The row of R66 that an instruction stands for. -/
def Instr.row : Instr → Row
  | .cls => ⟨0xF0FF, 0x00E0⟩
  | .ret => ⟨0xF0FF, 0x00EE⟩
  | .jp _ => ⟨0xF000, 0x1000⟩
  | .call _ => ⟨0xF000, 0x2000⟩
  | .seImm _ _ => ⟨0xF000, 0x3000⟩
  | .sneImm _ _ => ⟨0xF000, 0x4000⟩
  | .seReg _ _ => ⟨0xF000, 0x5000⟩
  | .ldImm _ _ => ⟨0xF000, 0x6000⟩
  | .addImm _ _ => ⟨0xF000, 0x7000⟩
  | .ldReg _ _ => ⟨0xF00F, 0x8000⟩
  | .orReg _ _ => ⟨0xF00F, 0x8001⟩
  | .andReg _ _ => ⟨0xF00F, 0x8002⟩
  | .xorReg _ _ => ⟨0xF00F, 0x8003⟩
  | .addReg _ _ => ⟨0xF00F, 0x8004⟩
  | .subReg _ _ => ⟨0xF00F, 0x8005⟩
  | .shr _ _ => ⟨0xF00F, 0x8006⟩
  | .subnReg _ _ => ⟨0xF00F, 0x8007⟩
  | .shl _ _ => ⟨0xF00F, 0x800E⟩
  | .sneReg _ _ => ⟨0xF000, 0x9000⟩
  | .ldI _ => ⟨0xF000, 0xA000⟩
  | .jpV0 _ => ⟨0xF000, 0xB000⟩
  | .rnd _ _ => ⟨0xF000, 0xC000⟩
  | .drw _ _ _ => ⟨0xF000, 0xD000⟩
  | .skp _ => ⟨0xF0FF, 0xE09E⟩
  | .sknp _ => ⟨0xF0FF, 0xE0A1⟩
  | .getDt _ => ⟨0xF0FF, 0xF007⟩
  | .waitKey _ => ⟨0xF0FF, 0xF00A⟩
  | .setDt _ => ⟨0xF0FF, 0xF015⟩
  | .setSt _ => ⟨0xF0FF, 0xF018⟩
  | .addI _ => ⟨0xF0FF, 0xF01E⟩
  | .ldFont _ => ⟨0xF0FF, 0xF029⟩
  | .storeBcd _ => ⟨0xF0FF, 0xF033⟩
  | .storeRegs _ => ⟨0xF0FF, 0xF055⟩
  | .loadRegs _ => ⟨0xF0FF, 0xF065⟩

/-- The 34 rows of the opcode map, in the table's order. -/
def opcodeMap : List Row :=
  [Instr.cls, .ret, .jp 0, .call 0, .seImm 0 0, .sneImm 0 0, .seReg 0 0, .ldImm 0 0, .addImm 0 0].map Instr.row ++
  [Instr.ldReg 0 0, .orReg 0 0, .andReg 0 0, .xorReg 0 0, .addReg 0 0, .subReg 0 0, .shr 0 0, .subnReg 0 0,
    .shl 0 0].map Instr.row ++
  [Instr.sneReg 0 0, .ldI 0, .jpV0 0, .rnd 0 0, .drw 0 0 0, .skp 0, .sknp 0, .getDt 0, .waitKey 0, .setDt 0,
    .setSt 0, .addI 0, .ldFont 0, .storeBcd 0, .storeRegs 0, .loadRegs 0].map Instr.row

end Sys2Proof
end

