-- ==== Sys2Proof/Config.lean ====
section
/-! DEFINITION. What is fixed for the core (the parameter table of `spec/00_scope.md` R8) and the one free value.
The parameter FONT has its default table in `Machine/Font.lean`; it is an argument of the operation RESET. -/

namespace Sys2Proof.Config

/-- MEM_SIZE: addresses 0x000-0xFFF (R8, R31). -/
def memSize : Nat := 0x1000

/-- START_ADDRESS: the program load address and the reset PC (R8). -/
def startAddress : Nat := 0x200

/-- FONT_SET_START_ADDRESS, the font base (R8). -/
def fontBase : Nat := 0x050

/-- FONT_SIZE: 16 glyphs of 5 bytes (R8). -/
def fontSize : Nat := 80

/-- MAX_PROGRAM: the longest image LOAD takes (R8, R55). -/
def maxProgram : Nat := memSize - startAddress

/-- FB_WIDTH (R8). -/
def fbWidth : Nat := 64

/-- FB_WIDTH x FB_HEIGHT, the number of pixels (R8, R30). -/
def fbSize : Nat := 2048

/-- RNG (R8, OPEN): the random byte of Cxkk when the host gives none. A free value: no body, so nothing can be proved
of any of its bytes (`spec/41_alu.md` R101, D23; log 2). -/
opaque rnd : Nat → Byte

end Sys2Proof.Config
end

