-- ==== Sys2Proof/Machine/Sparse.lean ====
section
/-! DEFINITION. A sparse array as a list of (index, value) pairs in one canonical form: indices strictly rising, no
entry equal to what an unlisted index reads as. Memory and the framebuffer are both held so. -/

namespace Sys2Proof.Machine

/-- The listed value at an index. -/
def Sparse.find? {α : Type} (k : Nat) : List (Nat × α) → Option α
  | [] => none
  | c :: rest => if c.1 = k then some c.2 else Sparse.find? k rest

/-- Put a pair before the first entry with a greater index. -/
def Sparse.insert {α : Type} (k : Nat) (a : α) : List (Nat × α) → List (Nat × α)
  | [] => [(k, a)]
  | c :: rest => if k < c.1 then (k, a) :: c :: rest else c :: Sparse.insert k a rest

/-- Take the entries of an index away. -/
def Sparse.erase {α : Type} (k : Nat) (l : List (Nat × α)) : List (Nat × α) := l.filter (fun c => c.1 ≠ k)

/-- Write a value: listed unless it is what the unlisted index reads as. -/
def Sparse.write {α : Type} [DecidableEq α] (unlisted : Nat → α) (k : Nat) (a : α) (l : List (Nat × α)) :
    List (Nat × α) :=
  if a = unlisted k then Sparse.erase k l else Sparse.insert k a (Sparse.erase k l)

/-- Read a value. -/
def Sparse.read {α : Type} (unlisted : Nat → α) (k : Nat) (l : List (Nat × α)) : α :=
  (Sparse.find? k l).getD (unlisted k)

/-- The canonical form, for indices below `size`. -/
abbrev Sparse.Canonical {α : Type} (unlisted : Nat → α) (size : Nat) (l : List (Nat × α)) : Prop :=
  l.Pairwise (fun a b => a.1 < b.1) ∧ ∀ c ∈ l, c.1 < size ∧ c.2 ≠ unlisted c.1

end Sys2Proof.Machine
end

