-- ==== Sys2Proof/Machine/State.lean ====
section
/-! DEFINITION. The state of the core (`spec/10_state.md`), the reasons a step can stop, and the state after reset. -/

namespace Sys2Proof.Machine

/-- The causes of `spec/60_exceptions.md` R140, held in the halt record by name; `FaultCause.code` gives the 8-bit
code. -/
inductive FaultCause where
  /-- 0 NONE: the reset value. -/
  | noFault
  /-- 1 INVALID_OPCODE: the word matches no row of R66. -/
  | invalidOpcode
  /-- 2 STACK_OVERFLOW: CALL with SP = 16. -/
  | stackOverflow
  /-- 3 STACK_UNDERFLOW: RET with SP = 0. -/
  | stackUnderflow
  /-- 4 KEY_RANGE: Ex9E or ExA1 with Vx above 15. -/
  | keyRange
  /-- 5 FETCH_RANGE: fetch with PC above 0xFFE. -/
  | fetchRange
  /-- 6 MEM_RANGE: a data address above 0xFFF. -/
  | memRange
  /-- 7 FB_RANGE: a set sprite bit past pixel 2047. -/
  | fbRange
  deriving DecidableEq, Repr

/-- Memory: (address, byte) pairs in canonical form (`Memory.wf`), holding what differs from the reset contents. -/
abbrev Memory := List Host.Cell

/-- The framebuffer: (pixel index, word) pairs in canonical form (`Framebuffer.wf`), holding the words that are not
unlit. -/
abbrev Framebuffer := List (Nat × Pixel)

/-- Everything the spec gives the core (`spec/10_state.md`), and the two fields of the model's own that carry the
random input of STEP (log 2). -/
structure State where
  /-- V0..VF, V[15] = VF (R20, R21). -/
  v : Vector Byte 16
  /-- I, the index register (R23). -/
  i : Word
  /-- PC: the address of the instruction to fetch; during execute already advanced by 2 (R24, R62). -/
  pc : Word
  /-- SP: the number of stack slots in use, legal values 0..16 (R25). -/
  sp : Byte
  /-- The return stack, an array of its own (R26). -/
  stack : Vector Word 16
  /-- DT, the delay timer (R27). -/
  dt : Byte
  /-- ST, the sound timer (R28). -/
  st : Byte
  /-- The keypad slots; pressed when nonzero (R29). -/
  key : Vector Byte 16
  /-- The framebuffer (R30). -/
  fb : Framebuffer
  /-- The memory (R31). -/
  mem : Memory
  /-- The most recently fetched word, scratch (R32). -/
  opcode : Word
  /-- The halt record's flag (R33). -/
  halted : Bool
  /-- The halt record's cause (R33, R140). -/
  faultCause : FaultCause
  /-- The halt record's address of the faulting instruction (R33). -/
  faultPc : Word
  /-- The model's own: the input `rnd` of the STEP being performed, when the host gives one (R72; log 2). -/
  rndIn : Option Byte
  /-- The model's own: how many free random bytes have been taken (R101; log 2). -/
  draws : Nat
  deriving DecidableEq, Repr

/-- Why a step stops outside the state. The faults of R140 are NOT here: the spec gives the state they leave
(R141), so they are next states. -/
inductive Fault where
  /-- CALL or RET in a state with SP above 16. R25 calls no such value legal and gives no stack slot for it; no run
  from reset reaches one. Raised by `pushPc` and `popPc`. Safe (log 7). -/
  | stackPointerOutOfRange
  deriving DecidableEq, Repr

/-- Why an instruction has no meaning. -/
inductive Refusal where
  /-- Raised by an arm of `exec` for an instruction without a meaning. No arm does: all 34 have theirs. Safe. -/
  | notModelled (mnemonic : String)
  deriving DecidableEq, Repr

/-- The state after RESET (`spec/10_state.md` R35): all zero, PC = 0x200, FONT in memory (what unlisted addresses read
as), the halt record clear. `rndIn` and `draws` are the model's own (log 2, DESIGN CHOICE). -/
def State.reset : State where
  v := Vector.replicate 16 0
  i := 0
  pc := BitVec.ofNat 16 Config.startAddress
  sp := 0
  stack := Vector.replicate 16 0
  dt := 0
  st := 0
  key := Vector.replicate 16 0
  fb := []
  mem := []
  opcode := 0
  halted := false
  faultCause := .noFault
  faultPc := 0
  rndIn := none
  draws := 0

end Sys2Proof.Machine
end

