-- ==== Sys2Proof/Machine/Ops.lean ====
section
/-! DEFINITION. The named operations over registers, stack, memory and framebuffer, taking a fault, and fetching. Every
reader and writer of the state goes through these. -/

namespace Sys2Proof.Machine

/-- What a step answers. -/
abbrev Result := Host.Outcome State Fault Refusal

/-- The 8-bit code of a cause (`spec/60_exceptions.md` R140). -/
def FaultCause.code : FaultCause → Byte
  | .noFault => 0
  | .invalidOpcode => 1
  | .stackOverflow => 2
  | .stackUnderflow => 3
  | .keyRange => 4
  | .fetchRange => 5
  | .memRange => 6
  | .fbRange => 7

/-! ## Registers (`spec/10_state.md` R20-R24, R27-R29) -/

/-- V[x]. -/
def State.reg (s : State) (x : Reg) : Byte := s.v[x]

/-- V[x] <- b. -/
def State.setReg (s : State) (x : Reg) (b : Byte) : State := { s with v := s.v.set x b }

/-- VF, the flag register, V[15] (R21). -/
def vf : Reg := 15

/-- I <- w. -/
def State.setI (s : State) (w : Word) : State := { s with i := w }

/-- PC <- w. -/
def State.setPc (s : State) (w : Word) : State := { s with pc := w }

/-- `skip`: PC <- PC + 2, on the PC the fetch has advanced (`spec/00_scope.md` R11). -/
def State.skip (s : State) : State := s.setPc (s.pc + 2)

/-- The address of the instruction being executed: PC - 2, the fetch advance taken back (log 8). -/
def State.pc0 (s : State) : Word := s.pc - 2

/-- DT <- b. -/
def State.setDelay (s : State) (b : Byte) : State := { s with dt := b }

/-- ST <- b. -/
def State.setSound (s : State) (b : Byte) : State := { s with st := b }

/-- key[k]. -/
def State.keySlot (s : State) (k : Reg) : Byte := s.key[k]

/-- key[k] <- b; only the host does this (R29). -/
def State.setKey (s : State) (k : Reg) (b : Byte) : State := { s with key := s.key.set k b }

/-- A slot is pressed when its byte is nonzero (R29). -/
def State.pressed (s : State) (k : Reg) : Bool := s.keySlot k != 0

/-- The lowest pressed key, if any is (`spec/44_input_timers.md` R133). -/
def State.lowestKey (s : State) : Option Reg := (List.finRange 16).find? s.pressed

/-! ## Memory (`spec/20_memory.md` R40-R47) -/

/-- What an unlisted address reads as: the reset contents, FONT at 0x050..0x09F and 0 elsewhere
(`spec/10_state.md` R35, R37; log 1). -/
def memUnlisted (a : Nat) : Byte :=
  if Config.fontBase ≤ a then defaultFont.toList.getD (a - Config.fontBase) 0 else 0

/-- The canonical form of memory. -/
abbrev Memory.wf (m : Memory) : Prop := Sparse.Canonical memUnlisted Config.memSize m

/-- Read one byte of a memory. -/
def Memory.read (m : Memory) (a : Nat) : Byte := Sparse.read memUnlisted a m

/-- Write one byte of a memory. -/
def Memory.write (m : Memory) (a : Nat) (b : Byte) : Memory := Sparse.write memUnlisted a b m

/-- Write bytes at consecutive addresses, the first at `a`. -/
def Memory.writeBytes (m : Memory) (a : Nat) : List Byte → Memory
  | [] => m
  | b :: rest => (m.write a b).writeBytes (a + 1) rest

/-- MemRead(a, 1): called only for an address that has passed the range check (R43, R44). -/
def State.readByte (s : State) (a : Nat) : Byte := s.mem.read a

/-- MemWrite(a + k, 1, bs[k]) for every byte: called only after the range check of the whole (R43, R44). -/
def State.writeBytes (s : State) (a : Nat) (bs : List Byte) : State := { s with mem := s.mem.writeBytes a bs }

/-- R44's check of a data access: the `count` bytes from `base` lie in memory. No byte, no check. -/
def dataInRange (base count : Nat) : Bool := count = 0 || base + count ≤ Config.memSize

/-! ## Framebuffer (`spec/10_state.md` R30, `spec/43_display.md`) -/

/-- LIT. -/
def lit : Pixel := 0xFFFFFFFF

/-- UNLIT. -/
def unlit : Pixel := 0

/-- What an unlisted pixel reads as. -/
def fbUnlisted (_ : Nat) : Pixel := unlit

/-- The canonical form of the framebuffer. -/
abbrev Framebuffer.wf (f : Framebuffer) : Prop := Sparse.Canonical fbUnlisted Config.fbSize f

/-- Read one pixel of a framebuffer. -/
def Framebuffer.read (f : Framebuffer) (p : Nat) : Pixel := Sparse.read fbUnlisted p f

/-- XOR one pixel between lit and unlit (R121). -/
def Framebuffer.flip (f : Framebuffer) (p : Nat) : Framebuffer := Sparse.write fbUnlisted p (f.read p ^^^ lit) f

/-- XOR every pixel of a list, in order. -/
def Framebuffer.flipAll (f : Framebuffer) : List Nat → Framebuffer
  | [] => f
  | p :: rest => (f.flip p).flipAll rest

/-- fb[p]. -/
def State.pixel (s : State) (p : Nat) : Pixel := s.fb.read p

/-- Every pixel unlit (R120). -/
def State.clearFb (s : State) : State := { s with fb := [] }

/-- XOR every pixel of a list. -/
def State.flipPixels (s : State) (ps : List Nat) : State := { s with fb := s.fb.flipAll ps }

/-! ## Taking a fault (`spec/60_exceptions.md` R141) -/

/-- Fault entry: the halt record is set, PC goes back to the faulting instruction, everything else stays. There is no
handler and no return (R141, R143). -/
def State.enterFault (s : State) (cause : FaultCause) (pc0 : Word) : State :=
  { s with pc := pc0, halted := true, faultCause := cause, faultPc := pc0 }

/-- `raise Fault(cause)` by an instruction being executed, which has written nothing yet. -/
def raise (cause : FaultCause) (s : State) : Result := .next (s.enterFault cause s.pc0)

/-! ## The return stack (`spec/10_state.md` R25, R26; `spec/40_control_flow.md` R80, R82) -/

/-- stack[SP] <- PC, SP <- SP + 1, PC <- target, or STACK_OVERFLOW at SP = 16 (R82). -/
def pushPc (target : Word) (s : State) : Result :=
  if s.sp = 16 then raise .stackOverflow s
  else if h : s.sp.toNat < 16 then
    .next { s with stack := s.stack.set s.sp.toNat s.pc, sp := s.sp + 1, pc := target }
  else .fault .stackPointerOutOfRange

/-- SP <- SP - 1, PC <- stack[SP], the slot kept, or STACK_UNDERFLOW at SP = 0 (R80). -/
def popPc (s : State) : Result :=
  if s.sp = 0 then raise .stackUnderflow s
  else if h : s.sp.toNat - 1 < 16 then
    .next { s with sp := s.sp - 1, pc := s.stack[s.sp.toNat - 1] }
  else .fault .stackPointerOutOfRange

/-! ## Block transfer of registers (`spec/42_index_memory.md` R114, R115) -/

/-- The bytes V0..Vx. -/
def State.regsUpTo (s : State) (x : Reg) : List Byte := (List.range (x.val + 1)).map (fun k => s.reg (Fin.ofNat 16 k))

/-- V[k] <- MemRead(a + k, 1) for k = 0 .. count-1, in order. -/
def State.loadFrom (s : State) (a : Nat) : Nat → State
  | 0 => s
  | k + 1 => (s.loadFrom a k).setReg (Fin.ofNat 16 k) (s.readByte (a + k))

/-! ## The random input (`spec/41_alu.md` R101; log 2) -/

/-- The byte `rnd` of this STEP: the host's, or a free one. -/
def State.rndByte (s : State) : Byte := s.rndIn.getD (Config.rnd s.draws)

/-- The byte is taken: the next draw is another one. -/
def State.takeRnd (s : State) : State := { s with rndIn := none, draws := s.draws + 1 }

/-! ## Fetch (`spec/30_encoding.md` R61, R62) -/

/-- R61: the fetch would read past the end of memory. -/
def State.fetchFaults (s : State) : Bool := decide (0xFFE < s.pc.toNat)

/-- The word at PC, big-endian (R62, `spec/20_memory.md` R45). -/
def State.fetchWord (s : State) : Word := wordOfBytes (s.readByte s.pc.toNat) (s.readByte (s.pc.toNat + 1))

/-- opcode <- op; PC <- PC + 2 (R62). -/
def State.fetched (s : State) : State := { s with opcode := s.fetchWord, pc := s.pc + 2 }

/-- `w` stored where the next STEP fetches, with what the fetch needs and nothing else: the core is not halted, and PC
is an address a fetch can read (it is left alone where it is one). -/
def State.placeWord (s : State) (w : Word) : State :=
  let s1 := { s with halted := false, pc := if s.fetchFaults then BitVec.ofNat 16 Config.startAddress else s.pc }
  s1.writeBytes s1.pc.toNat (bytesOfWord w)

end Sys2Proof.Machine
end

