-- ==== Sys2Proof/Machine/Cycle.lean ====
section
/-! DEFINITION. The fetch-decode-execute cycle of STEP (`spec/30_encoding.md` R72), over the dispatcher it is given. -/

namespace Sys2Proof.Machine

/-- Decode the fetched word and execute it on the state with PC advanced, or raise INVALID_OPCODE (R67, R73). -/
def execFetched (run : Instr → State → Result) (s : State) : Result :=
  match decode s.fetchWord with
  | .error _ => raise .invalidOpcode s.fetched
  | .ok i => run i s.fetched

/-- STEP (R72): nothing while halted (`spec/60_exceptions.md` R142); FETCH_RANGE before any byte is read (R61); else
one instruction. -/
def cycle (run : Instr → State → Result) (s : State) : Result :=
  if s.halted then .next s
  else if s.fetchFaults then .next (s.enterFault .fetchRange s.pc)
  else execFetched run s

end Sys2Proof.Machine
end

