-- ==== Sys2Proof/Machine/Flags.lean ====
section
/-! DEFINITION. Every flag computation: a flag is a truth value written to VF as 0 or 1
(`spec/10_state.md` R21, `spec/41_alu.md` R89). -/

namespace Sys2Proof.Machine

/-- A flag as the byte VF holds. -/
def flagByte (f : Bool) : Byte := if f then 1 else 0

/-- Carry out of bit 7 of a + b (`spec/41_alu.md` R96). -/
def carryFlag (a b : Byte) : Bool := decide (255 < a.toNat + b.toNat)

/-- NOT borrow of a - b: set when a ≥ b (R97, R99). -/
def notBorrowFlag (a b : Byte) : Bool := decide (b.toNat ≤ a.toNat)

/-- The bit a right shift moves out, bit 0 (R98). -/
def lsbFlag (a : Byte) : Bool := a.getLsbD 0

/-- The bit a left shift moves out, bit 7 (R100). -/
def msbFlag (a : Byte) : Bool := a.getLsbD 7

/-- A pixel of the list is lit (`spec/43_display.md` R121). -/
def State.collisionFlag (s : State) (ps : List Nat) : Bool := ps.any (fun p => s.pixel p == lit)

/-- VF <- flag. -/
def State.setFlag (s : State) (f : Bool) : State := s.setReg vf (flagByte f)

/-- V[x] <- result, then VF <- flag, so that VF ends as the flag when x = F (R89). -/
def State.setResultThenFlag (s : State) (x : Reg) (result : Byte) (f : Bool) : State := (s.setReg x result).setFlag f

end Sys2Proof.Machine
end

