-- ==== Sys2Proof/Machine/Operands.lean ====
section
/-! DEFINITION. The operand forms: immediates widened (`spec/30_encoding.md` R63), the effective address I + k
(`spec/42_index_memory.md` R116), glyph addresses, decimal digits, key numbers and the pixels of a sprite. -/

namespace Sys2Proof.Machine

/-- zext_16 of a 12-bit address (R63). -/
def addressWord (nnn : BitVec 12) : Word := nnn.zeroExtend 16

/-- zext_16 of a register's byte. -/
def byteWord (b : Byte) : Word := b.zeroExtend 16

/-- The base address of a data access: I as an exact integer (R44, R116). -/
def State.base (s : State) : Nat := s.i.toNat

/-- The glyph address 0x050 + 5 * Vx, the whole byte used (`spec/42_index_memory.md` R112). -/
def glyphAddress (b : Byte) : Word := BitVec.ofNat 16 (Config.fontBase + 5 * b.toNat)

/-- Hundreds, tens and ones of a byte (`spec/42_index_memory.md` R113). -/
def bcdDigits (b : Byte) : List Byte :=
  [BitVec.ofNat 8 (b.toNat / 100), BitVec.ofNat 8 (b.toNat / 10 % 10), BitVec.ofNat 8 (b.toNat % 10)]

/-- The key a register names, if its value is one (`spec/44_input_timers.md` R130). -/
def keyNumber (b : Byte) : Option Reg := if h : b.toNat < 16 then some ⟨b.toNat, h⟩ else none

/-- The anchor column, Vx mod 64 (`spec/43_display.md` R121). -/
def anchorX (b : Byte) : Nat := b.toNat % 64

/-- The anchor row, Vy mod 64 as the spec writes it (R121; `spec/90_conflicts.md` C1; log 14). -/
def anchorY (b : Byte) : Nat := b.toNat % 64

/-- The sprite's bytes, one per row, top row first: MemRead(I + r, 1) for r < n (R121). -/
def State.spriteRows (s : State) (n : Nat) : List Byte := (List.range n).map (fun r => s.readByte (s.base + r))

/-- The linear index of a pixel, exact (R121). -/
def pixelIndex (row col : Nat) : Nat := row * Config.fbWidth + col

/-- The pixels of one sprite row: column c for every set bit 7 - c (R121, R122; log 11). -/
def rowPixels (row col : Nat) (bits : Byte) : List Nat :=
  ((List.range 8).filter (fun c => bits.getLsbD (7 - c))).map (fun c => pixelIndex row (col + c))

/-- The pixels under the sprite's set bits, row by row from `row` down. -/
def spritePixels (row col : Nat) : List Byte → List Nat
  | [] => []
  | bits :: rest => rowPixels row col bits ++ spritePixels (row + 1) col rest

end Sys2Proof.Machine
end

