-- ==== Sys2Proof/Machine/Alu.lean ====
section
/-! DEFINITION. The register arithmetic and logic instructions (`spec/41_alu.md`): bytes, modulo 256 (R89). -/

namespace Sys2Proof.Machine

/-- 6xkk LD Vx, kk (R90). -/
def execLdImm (x : Reg) (kk : Byte) (s : State) : Result := .next (s.setReg x kk)

/-- 7xkk ADD Vx, kk: no flag (R91). -/
def execAddImm (x : Reg) (kk : Byte) (s : State) : Result := .next (s.setReg x (s.reg x + kk))

/-- 8xy0 LD Vx, Vy (R92; log 12). -/
def execLdReg (x y : Reg) (s : State) : Result := .next (s.setReg x (s.reg y))

/-- 8xy1 OR Vx, Vy: VF not written (R93). -/
def execOrReg (x y : Reg) (s : State) : Result := .next (s.setReg x (s.reg x ||| s.reg y))

/-- 8xy2 AND Vx, Vy: VF not written (R94). -/
def execAndReg (x y : Reg) (s : State) : Result := .next (s.setReg x (s.reg x &&& s.reg y))

/-- 8xy3 XOR Vx, Vy: VF not written (R95). -/
def execXorReg (x y : Reg) (s : State) : Result := .next (s.setReg x (s.reg x ^^^ s.reg y))

/-- 8xy4 ADD Vx, Vy, VF = carry (R96). -/
def execAddReg (x y : Reg) (s : State) : Result :=
  .next (s.setResultThenFlag x (s.reg x + s.reg y) (carryFlag (s.reg x) (s.reg y)))

/-- 8xy5 SUB Vx, Vy, VF = not borrow (R97). -/
def execSubReg (x y : Reg) (s : State) : Result :=
  .next (s.setResultThenFlag x (s.reg x - s.reg y) (notBorrowFlag (s.reg x) (s.reg y)))

/-- 8xy6 SHR Vx, VF = bit 0; Vy is not read (R98; log 13). -/
def execShr (x _y : Reg) (s : State) : Result :=
  .next (s.setResultThenFlag x (s.reg x >>> 1) (lsbFlag (s.reg x)))

/-- 8xy7 SUBN Vx, Vy: Vy - Vx, VF = not borrow (R99). -/
def execSubnReg (x y : Reg) (s : State) : Result :=
  .next (s.setResultThenFlag x (s.reg y - s.reg x) (notBorrowFlag (s.reg y) (s.reg x)))

/-- 8xyE SHL Vx, VF = bit 7; Vy is not read (R100; log 13). -/
def execShl (x _y : Reg) (s : State) : Result :=
  .next (s.setResultThenFlag x (s.reg x <<< 1) (msbFlag (s.reg x)))

/-- Cxkk RND Vx, kk: the STEP's random input masked by kk (R101; log 2). -/
def execRnd (x : Reg) (kk : Byte) (s : State) : Result := .next (s.takeRnd.setReg x (s.rndByte &&& kk))

end Sys2Proof.Machine
end

