-- ==== Sys2Proof/Machine/Control.lean ====
section
/-! DEFINITION. The control-flow instructions (`spec/40_control_flow.md`). PC already holds the address of the next
instruction when a meaning runs (R62). -/

namespace Sys2Proof.Machine

/-- Skip the next instruction when the condition holds (`spec/00_scope.md` R11). -/
def skipIf (c : Bool) (s : State) : Result := .next (if c then s.skip else s)

/-- 00EE RET (R80). -/
def execRet (s : State) : Result := popPc s

/-- 1nnn JP nnn (R81). -/
def execJp (nnn : BitVec 12) (s : State) : Result := .next (s.setPc (addressWord nnn))

/-- 2nnn CALL nnn (R82). -/
def execCall (nnn : BitVec 12) (s : State) : Result := pushPc (addressWord nnn) s

/-- 3xkk SE Vx, kk (R83). -/
def execSeImm (x : Reg) (kk : Byte) (s : State) : Result := skipIf (s.reg x == kk) s

/-- 4xkk SNE Vx, kk (R84). -/
def execSneImm (x : Reg) (kk : Byte) (s : State) : Result := skipIf (s.reg x != kk) s

/-- 5xy0 SE Vx, Vy (R85). -/
def execSeReg (x y : Reg) (s : State) : Result := skipIf (s.reg x == s.reg y) s

/-- 9xy0 SNE Vx, Vy (R86). -/
def execSneReg (x y : Reg) (s : State) : Result := skipIf (s.reg x != s.reg y) s

/-- Bnnn JP V0, nnn (R87); the sum is at most 0x10FE. -/
def execJpV0 (nnn : BitVec 12) (s : State) : Result := .next (s.setPc (addressWord nnn + byteWord (s.reg 0)))

end Sys2Proof.Machine
end

