-- ==== Sys2Proof/Machine/Display.lean ====
section
/-! DEFINITION. The display instructions (`spec/43_display.md`). -/

namespace Sys2Proof.Machine

/-- 00E0 CLS (R120). -/
def execCls (s : State) : Result := .next s.clearFb

/-- The draw of R121 once the sprite's bytes are in range: FB_RANGE if a set bit lies past pixel 2047; else every pixel
under a set bit is flipped and VF says whether one was lit before. -/
def drawPixels (ps : List Nat) (s : State) : Result :=
  if ps.all (fun p => decide (p < Config.fbSize)) then .next ((s.flipPixels ps).setFlag (s.collisionFlag ps))
  else raise .fbRange s

/-- Dxyn DRW Vx, Vy, n (R121): MEM_RANGE is checked before FB_RANGE (`spec/60_exceptions.md` R144). -/
def execDrw (x y : Reg) (n : Nat) (s : State) : Result :=
  if dataInRange s.base n then
    drawPixels (spritePixels (anchorY (s.reg y)) (anchorX (s.reg x)) (s.spriteRows n)) s
  else raise .memRange s

end Sys2Proof.Machine
end

