-- ==== Sys2Proof/Machine/Index.lean ====
section
/-! DEFINITION. The index-register and memory-transfer instructions (`spec/42_index_memory.md`). The range check comes
before the first write (`spec/20_memory.md` R44), and I is left alone by the accesses (R116). -/

namespace Sys2Proof.Machine

/-- Annn LD I, nnn (R110). -/
def execLdI (nnn : BitVec 12) (s : State) : Result := .next (s.setI (addressWord nnn))

/-- Fx1E ADD I, Vx, modulo 2^16, no flag (R111). -/
def execAddI (x : Reg) (s : State) : Result := .next (s.setI (s.i + byteWord (s.reg x)))

/-- Fx29 LD F, Vx (R112). -/
def execLdFont (x : Reg) (s : State) : Result := .next (s.setI (glyphAddress (s.reg x)))

/-- Store bytes at I, I + 1, .. or raise MEM_RANGE (R44). -/
def storeAtI (bs : List Byte) (s : State) : Result :=
  if dataInRange s.base bs.length then .next (s.writeBytes s.base bs) else raise .memRange s

/-- Fx33 LD B, Vx (R113). -/
def execStoreBcd (x : Reg) (s : State) : Result := storeAtI (bcdDigits (s.reg x)) s

/-- Fx55 LD [I], Vx (R114). -/
def execStoreRegs (x : Reg) (s : State) : Result := storeAtI (s.regsUpTo x) s

/-- Fx65 LD Vx, [I] (R115). -/
def execLoadRegs (x : Reg) (s : State) : Result :=
  if dataInRange s.base (x.val + 1) then .next (s.loadFrom s.base (x.val + 1)) else raise .memRange s

end Sys2Proof.Machine
end

