-- ==== Sys2Proof/Machine/Input.lean ====
section
/-! DEFINITION. The keypad and timer instructions (`spec/44_input_timers.md`). -/

namespace Sys2Proof.Machine

/-- Skip when key Vx's pressed state is `want`; KEY_RANGE when Vx is no key (R130, R131). -/
def skipOnKey (want : Bool) (x : Reg) (s : State) : Result :=
  match keyNumber (s.reg x) with
  | none => raise .keyRange s
  | some k => skipIf (s.pressed k == want) s

/-- Ex9E SKP Vx (R130). -/
def execSkp (x : Reg) (s : State) : Result := skipOnKey true x s

/-- ExA1 SKNP Vx (R131). -/
def execSknp (x : Reg) (s : State) : Result := skipOnKey false x s

/-- Fx07 LD Vx, DT (R132). -/
def execGetDt (x : Reg) (s : State) : Result := .next (s.setReg x s.dt)

/-- Fx0A LD Vx, K: with no key pressed PC goes back to this instruction (R133). -/
def execWaitKey (x : Reg) (s : State) : Result :=
  match s.lowestKey with
  | none => .next (s.setPc s.pc0)
  | some k => .next (s.setReg x (BitVec.ofNat 8 k.val))

/-- Fx15 LD DT, Vx (R134). -/
def execSetDt (x : Reg) (s : State) : Result := .next (s.setDelay (s.reg x))

/-- Fx18 LD ST, Vx (R135). -/
def execSetSt (x : Reg) (s : State) : Result := .next (s.setSound (s.reg x))

end Sys2Proof.Machine
end

