-- ==== Sys2Proof/Machine/Step.lean ====
section
/-! DEFINITION. One step: the operation STEP of `spec/30_encoding.md` R72. -/

namespace Sys2Proof.Machine

/-- STEP: one fetch-decode-execute cycle. -/
def step (s : State) : Host.Outcome State Fault Refusal := cycle exec s

/-- The instruction word of an opcode-table row stored where `step` fetches next (log 3). -/
def State.withFetchWord (s : State) (nbits w : Nat) : State := s.placeWord (tableWord nbits w)

end Sys2Proof.Machine
end

