-- ==== Sys2Proof/Machine/HostOps.lean ====
section
/-! DEFINITION. The operations through which the host drives the core (`spec/00_scope.md` R6): RESET, LOAD, STEP(rnd),
TICK, KEY_WRITE and the reads, each with its reply, and sequences of them. Each is atomic and none overlaps another
(R7): a schedule is a list. -/

namespace Sys2Proof.Machine

/-- One operation with its inputs (R6). -/
inductive HostOp where
  | reset
  | load (bytes : List Byte)
  | step (rnd : Byte)
  | tick
  | keyWrite (k : Reg) (b : Byte)
  | fbRead (p : Fin 2048)
  | stRead
  | statusRead
  deriving DecidableEq, Repr

/-- What an operation returns (R6). -/
inductive Reply where
  /-- RESET, TICK and KEY_WRITE return nothing. -/
  | done
  | loadOk
  | loadTooLarge
  | stepOk
  | stepHalted (cause : FaultCause)
  | pixel (value : Pixel)
  | soundTimer (value : Byte)
  | status (halted : Bool) (faultCause : Byte) (faultPc : Word)
  deriving DecidableEq, Repr

/-- RESET with the parameter FONT (`spec/70_reset_and_hazards.md` R160): everything cleared, PC = 0x200, FONT copied to
0x050 through memory. It does not look at the state before. `State.reset` is this for the default FONT. -/
def resetWith (font : Font) : State := State.reset.writeBytes Config.fontBase font.toList

/-- LOAD (`spec/20_memory.md` R55): nothing is written when the image is too large. -/
def load (bytes : List Byte) (s : State) : State × Reply :=
  if Config.maxProgram < bytes.length then (s, .loadTooLarge)
  else (s.writeBytes Config.startAddress bytes, .loadOk)

/-- A timer counts down while nonzero (`spec/60_exceptions.md` R152). -/
def countDown (b : Byte) : Byte := if b = 0 then 0 else b - 1

/-- TICK (R152). -/
def tick (s : State) : State := { s with dt := countDown s.dt, st := countDown s.st }

/-- What STEP returns, read off the state it leaves (`spec/30_encoding.md` R72, `spec/60_exceptions.md` R141, R142). -/
def stepReply (s : State) : Reply := if s.halted then .stepHalted s.faultCause else .stepOk

/-- STEP(rnd) (R72): `step` with the host's random byte as its input; the input does not outlive the STEP. -/
def stepWith (rnd : Byte) (s : State) : Result :=
  match step { s with rndIn := some rnd } with
  | .next t => .next { t with rndIn := none }
  | .fault f => .fault f
  | .refused r => .refused r

/-- One host operation. -/
def perform (font : Font) (op : HostOp) (s : State) : Host.Outcome (State × Reply) Fault Refusal :=
  match op with
  | .reset => .next (resetWith font, .done)
  | .load bytes => .next (load bytes s)
  | .step rnd =>
    match stepWith rnd s with
    | .next t => .next (t, stepReply t)
    | .fault f => .fault f
    | .refused r => .refused r
  | .tick => .next (tick s, .done)
  | .keyWrite k b => .next (s.setKey k b, .done)
  | .fbRead p => .next (s, .pixel (s.pixel p.val))
  | .stRead => .next (s, .soundTimer s.st)
  | .statusRead => .next (s, .status s.halted s.faultCause.code s.faultPc)

/-- A run: a sequence of host operations (R7; `spec/70_reset_and_hazards.md` R166). -/
def runOps (font : Font) : List HostOp → State → Result
  | [], s => .next s
  | op :: rest, s =>
    match perform font op s with
    | .next (t, _) => runOps font rest t
    | .fault f => .fault f
    | .refused r => .refused r

end Sys2Proof.Machine
end

