-- ==== Sys2Proof/Safety.lean ====
section
/-! DEFINITION. What counts as a safe run, and the invariant of the states a run reaches. -/

namespace Sys2Proof.Machine

/-- A faulted state: the halt record is set (`spec/70_reset_and_hazards.md` R166). -/
abbrev State.Faulted (s : State) : Prop := s.halted = true

/-- A state in which a run has finished at `addr` by the spec's convention (R166). -/
abbrev State.FinishedAt (s : State) (addr : Word) : Prop := s.halted = false ∧ s.pc = addr

/-- A safe run: the operations answer a state, and it is not faulted. A halt is sticky until RESET, so a run without
RESET that ends unfaulted never faulted (`spec/60_exceptions.md` R142). -/
abbrev SafeRun (font : Font) (ops : List HostOp) (s : State) : Prop :=
  ∃ t, runOps font ops s = .next t ∧ ¬ t.Faulted

/-- What holds of every state between two operations of a run from RESET. -/
structure State.Inv (s : State) : Prop where
  /-- `spec/10_state.md` R25: 0 ≤ SP ≤ 16. -/
  sp_legal : s.sp.toNat ≤ 16
  /-- R24: every value PC can take is at most 0x10FE. -/
  pc_bound : s.pc.toNat ≤ 0x10FE
  /-- `spec/40_control_flow.md` R80: a return address is at most 0x1000. -/
  stack_bound : ∀ j : Fin 16, s.stack[j].toNat ≤ 0x1000
  /-- Memory is in canonical form (the model's representation, log 1). -/
  mem_wf : Memory.wf s.mem
  /-- The framebuffer is in canonical form (the model's representation, log 5). -/
  fb_wf : Framebuffer.wf s.fb
  /-- `spec/10_state.md` R30: each word is either lit or unlit. -/
  fb_lit : ∀ p, s.pixel p = lit ∨ s.pixel p = unlit
  /-- R33: the record names a cause exactly while halted. -/
  halt_cause : s.halted = true ↔ s.faultCause ≠ .noFault
  /-- R33, R35: outside a halt the record's address is 0; in a halt it is PC (`spec/60_exceptions.md` R141). -/
  halt_pc : s.faultPc = if s.halted then s.pc else 0

end Sys2Proof.Machine
end

