-- ==== Sys2Proof/Certificates/Slice0/Obligations.lean ====
section
/-! DEFINITION. The statements for the provers. Each says which rule of `spec/` it formalises; where a clause rests on
what the spec marks as general knowledge or as derived, or on a log entry, the docstring says so. -/

open Sys2Proof Sys2Proof.Machine

namespace Sys2Proof.Says

/-- Every word that a row's mask and value select decodes to the given instruction (`spec/30_encoding.md` R66). -/
def Encodes (mask value : Word) (mk : Word → Instr) : Prop :=
  ∀ w : Word, w &&& mask = value → decode w = .ok (mk w)

/-- The answer is `s` with V[x] = b: the other registers and everything else are unchanged. -/
def SetsReg (o : Result) (s : State) (x : Reg) (b : Byte) : Prop :=
  ∃ t, o = .next t ∧ t.reg x = b ∧ (∀ y, y ≠ x → t.reg y = s.reg y) ∧ t = { s with v := t.v }

/-- The answer is `s` with VF = f and, unless x = F, V[x] = r: the other registers and everything else are
unchanged. -/
def SetsRegAndFlag (o : Result) (s : State) (x : Reg) (r f : Byte) : Prop :=
  ∃ t, o = .next t ∧ t.reg 15 = f ∧ (x ≠ 15 → t.reg x = r) ∧ (∀ y, y ≠ x → y ≠ 15 → t.reg y = s.reg y) ∧
    t = { s with v := t.v }

/-- The 16-bit word at PC, the byte at PC high. -/
def wordAt (s : State) : Word := s.readByte s.pc.toNat ++ s.readByte (s.pc.toNat + 1)

/-- The core runs and the next STEP fetches a whole word. -/
def Runs (s : State) : Prop := s.halted = false ∧ s.pc.toNat ≤ 0xFFE

/-- The next STEP fetches the instruction `i`. -/
def Fetches (s : State) (i : Instr) : Prop := Runs s ∧ decode (wordAt s) = .ok i

/-- The next STEP raises the fault after its fetch: the state before it, with `opcode` and the halt record set
(`spec/60_exceptions.md` R141). -/
def FaultsWith (s : State) (c : FaultCause) : Prop :=
  step s = .next { s with opcode := wordAt s, halted := true, faultCause := c, faultPc := s.pc }

/-- Pixel `p` lies under a set bit of the sprite of DRW Vx, Vy, n (`spec/43_display.md` R121: the set S and the index
p(r, c)). -/
def SpriteCovers (s : State) (x y : Reg) (n p : Nat) : Prop :=
  ∃ r c, r < n ∧ c ≤ 7 ∧ (s.readByte (s.i.toNat + r)).getLsbD (7 - c) = true ∧
    p = ((s.reg y).toNat % 64 + r) * 64 + ((s.reg x).toNat % 64 + c)

end Sys2Proof.Says

open Sys2Proof.Says

/-! ## Control flow (`spec/40_control_flow.md`) -/

/-- R80 RET: with SP = j + 1 in 1..16, SP becomes j and PC becomes stack[j], and nothing else changes (the slot is not
cleared); with SP = 0 the STEP faults with STACK_UNDERFLOW. The restored PC is at most 0x1000 in every state that meets
the invariant. -/
def Obligations.RetPopsTheReturnAddress : Prop :=
  Encodes 0xF0FF 0x00EE (fun _ => .ret) ∧
  (∀ (s : State) (j : Fin 16), s.sp.toNat = j.val + 1 →
    exec .ret s = .next { s with sp := BitVec.ofNat 8 j.val, pc := s.stack[j] } ∧
    (s.Inv → s.stack[j].toNat ≤ 0x1000)) ∧
  (∀ s : State, Fetches s .ret → s.sp = 0 → FaultsWith s .stackUnderflow)

/-- R81 JP nnn and R87 JP V0, nnn: only PC changes; the sum nnn + V0 is exact. A jump to 0xFFF, or to a sum above
0xFFE, makes the next STEP fault with FETCH_RANGE; a jump at its own address changes nothing but `opcode`. -/
def Obligations.JumpsGoToTheirTarget : Prop :=
  Encodes 0xF000 0x1000 (fun w => .jp (nnnOf w)) ∧ Encodes 0xF000 0xB000 (fun w => .jpV0 (nnnOf w)) ∧
  (∀ (nnn : BitVec 12) (s : State), ∃ t, exec (.jp nnn) s = .next t ∧ t.pc.toNat = nnn.toNat ∧ t = { s with pc := t.pc }) ∧
  (∀ (nnn : BitVec 12) (s : State), ∃ t, exec (.jpV0 nnn) s = .next t ∧ t.pc.toNat = nnn.toNat + (s.reg 0).toNat ∧
    t = { s with pc := t.pc }) ∧
  (∀ (nnn : BitVec 12) (s t : State), s.halted = false → (exec (.jp nnn) s = .next t ∨ exec (.jpV0 nnn) s = .next t) →
    0xFFE < t.pc.toNat →
    step t = .next { t with halted := true, faultCause := .fetchRange, faultPc := t.pc }) ∧
  (∀ (nnn : BitVec 12) (s : State), Fetches s (.jp nnn) → s.pc.toNat = nnn.toNat →
    step s = .next { s with opcode := wordAt s })

/-- R82 CALL nnn: with SP = j in 0..15, stack[j] = PC (the return address), SP = j + 1, PC = nnn, nothing else changes;
with SP = 16 the STEP faults with STACK_OVERFLOW. -/
def Obligations.CallPushesTheReturnAddress : Prop :=
  Encodes 0xF000 0x2000 (fun w => .call (nnnOf w)) ∧
  (∀ (nnn : BitVec 12) (s : State) (j : Fin 16), s.sp.toNat = j.val →
    exec (.call nnn) s =
      .next { s with stack := s.stack.set j.val s.pc, sp := BitVec.ofNat 8 (j.val + 1), pc := BitVec.ofNat 16 nnn.toNat }) ∧
  (∀ (nnn : BitVec 12) (s : State), Fetches s (.call nnn) → s.sp = 16 → FaultsWith s .stackOverflow)

/-- R83 SE Vx, kk and R84 SNE Vx, kk: PC moves 2 further exactly when Vx equals kk, or differs; nothing else changes. -/
def Obligations.SkipsOnAnImmediate : Prop :=
  Encodes 0xF000 0x3000 (fun w => .seImm (xOf w) (kkOf w)) ∧ Encodes 0xF000 0x4000 (fun w => .sneImm (xOf w) (kkOf w)) ∧
  (∀ (x : Reg) (kk : Byte) (s : State), s.reg x = kk →
    exec (.seImm x kk) s = .next { s with pc := s.pc + 2 } ∧ exec (.sneImm x kk) s = .next s) ∧
  (∀ (x : Reg) (kk : Byte) (s : State), s.reg x ≠ kk →
    exec (.seImm x kk) s = .next s ∧ exec (.sneImm x kk) s = .next { s with pc := s.pc + 2 })

/-- R85 SE Vx, Vy and R86 SNE Vx, Vy: PC moves 2 further exactly when the registers are equal, or differ; nothing else
changes; x = y always skips, or never. -/
def Obligations.SkipsOnRegisters : Prop :=
  Encodes 0xF000 0x5000 (fun w => .seReg (xOf w) (yOf w)) ∧ Encodes 0xF000 0x9000 (fun w => .sneReg (xOf w) (yOf w)) ∧
  (∀ (x y : Reg) (s : State), s.reg x = s.reg y →
    exec (.seReg x y) s = .next { s with pc := s.pc + 2 } ∧ exec (.sneReg x y) s = .next s) ∧
  (∀ (x y : Reg) (s : State), s.reg x ≠ s.reg y →
    exec (.seReg x y) s = .next s ∧ exec (.sneReg x y) s = .next { s with pc := s.pc + 2 }) ∧
  (∀ (x : Reg) (s : State),
    exec (.seReg x x) s = .next { s with pc := s.pc + 2 } ∧ exec (.sneReg x x) s = .next s)

/-! ## Register arithmetic and logic (`spec/41_alu.md`) -/

/-- R90 LD Vx, kk and R91 ADD Vx, kk: Vx becomes kk, or (Vx + kk) mod 256; every other register (VF included, unless it
is Vx) and everything else is unchanged. -/
def Obligations.ImmediateLoadAndAdd : Prop :=
  Encodes 0xF000 0x6000 (fun w => .ldImm (xOf w) (kkOf w)) ∧ Encodes 0xF000 0x7000 (fun w => .addImm (xOf w) (kkOf w)) ∧
  ∀ (x : Reg) (kk : Byte) (s : State),
    SetsReg (exec (.ldImm x kk) s) s x kk ∧
    SetsReg (exec (.addImm x kk) s) s x (BitVec.ofNat 8 (((s.reg x).toNat + kk.toNat) % 256))

/-- R92 to R95, LD, OR, AND, XOR of two registers: Vx gets the copy or the bitwise result; VF and every other register
are unchanged unless they are Vx; nothing else changes. Rests on the spec's own words "[from general knowledge, not in
source]" for the meaning of 8xy0 and for the low nibbles 0 to 3 (R66, R92; log 12). -/
def Obligations.CopyAndLogicLeaveVfAlone : Prop :=
  Encodes 0xF00F 0x8000 (fun w => .ldReg (xOf w) (yOf w)) ∧ Encodes 0xF00F 0x8001 (fun w => .orReg (xOf w) (yOf w)) ∧
  Encodes 0xF00F 0x8002 (fun w => .andReg (xOf w) (yOf w)) ∧ Encodes 0xF00F 0x8003 (fun w => .xorReg (xOf w) (yOf w)) ∧
  ∀ (x y : Reg) (s : State),
    SetsReg (exec (.ldReg x y) s) s x (s.reg y) ∧
    SetsReg (exec (.orReg x y) s) s x (BitVec.ofNat 8 ((s.reg x).toNat ||| (s.reg y).toNat)) ∧
    SetsReg (exec (.andReg x y) s) s x (BitVec.ofNat 8 ((s.reg x).toNat &&& (s.reg y).toNat)) ∧
    SetsReg (exec (.xorReg x y) s) s x (BitVec.ofNat 8 ((s.reg x).toNat ^^^ (s.reg y).toNat))

/-- R96 ADD Vx, Vy: Vx becomes the sum mod 256, then VF 1 if the sum is above 255 and else 0; with x = F the flag is
what VF holds. -/
def Obligations.AddSetsTheCarryFlag : Prop :=
  Encodes 0xF00F 0x8004 (fun w => .addReg (xOf w) (yOf w)) ∧
  ∀ (x y : Reg) (s : State),
    SetsRegAndFlag (exec (.addReg x y) s) s x (BitVec.ofNat 8 (((s.reg x).toNat + (s.reg y).toNat) % 256))
      (if (s.reg x).toNat + (s.reg y).toNat > 255 then 1 else 0)

/-- R97 SUB and R99 SUBN: Vx becomes Vx - Vy, or Vy - Vx, mod 256 (computed in the integers), then VF becomes 1 when no
borrow happened, equality included. The low nibbles 5 and 7 are the spec's "[from general knowledge, not in source]"
(R66; log 12). -/
def Obligations.SubtractionsSetNotBorrow : Prop :=
  Encodes 0xF00F 0x8005 (fun w => .subReg (xOf w) (yOf w)) ∧ Encodes 0xF00F 0x8007 (fun w => .subnReg (xOf w) (yOf w)) ∧
  ∀ (x y : Reg) (s : State),
    SetsRegAndFlag (exec (.subReg x y) s) s x (BitVec.ofInt 8 (((s.reg x).toNat - (s.reg y).toNat : Int) % 256))
      (if (s.reg x).toNat ≥ (s.reg y).toNat then 1 else 0) ∧
    SetsRegAndFlag (exec (.subnReg x y) s) s x (BitVec.ofInt 8 (((s.reg y).toNat - (s.reg x).toNat : Int) % 256))
      (if (s.reg y).toNat ≥ (s.reg x).toNat then 1 else 0)

/-- R98 SHR and R100 SHL: Vx is halved, or doubled mod 256, then VF becomes the bit shifted out; Vy plays no part (two
words that differ in y alone do the same). The low nibbles 6 and E and the shift in place are the spec's "[from general
knowledge, not in source]" (R66, D10; logs 12 and 13). -/
def Obligations.ShiftsSetTheBitShiftedOut : Prop :=
  Encodes 0xF00F 0x8006 (fun w => .shr (xOf w) (yOf w)) ∧ Encodes 0xF00F 0x800E (fun w => .shl (xOf w) (yOf w)) ∧
  ∀ (x y : Reg) (s : State),
    SetsRegAndFlag (exec (.shr x y) s) s x (BitVec.ofNat 8 ((s.reg x).toNat / 2)) (BitVec.ofNat 8 ((s.reg x).toNat % 2)) ∧
    SetsRegAndFlag (exec (.shl x y) s) s x (BitVec.ofNat 8 ((s.reg x).toNat * 2 % 256))
      (BitVec.ofNat 8 ((s.reg x).toNat / 128)) ∧
    (∀ z : Reg, exec (.shr x z) s = exec (.shr x y) s ∧ exec (.shl x z) s = exec (.shl x y) s)

/-- R101 RND Vx, kk: STEP(rnd) sets Vx to rnd AND kk for every byte rnd the host gives, and changes no other register
and nothing else but `opcode` and PC as every fetch does (and the model's own carriers of rnd); kk = 0 gives 0 and
kk = FF gives rnd. -/
def Obligations.RandomByteIsMasked : Prop :=
  Encodes 0xF000 0xC000 (fun w => .rnd (xOf w) (kkOf w)) ∧
  (∀ (x : Reg) (kk r : Byte) (s : State), Fetches s (.rnd x kk) → ∃ t, stepWith r s = .next t ∧
    t.reg x = r &&& kk ∧ (kk = 0x00 → t.reg x = 0) ∧ (kk = 0xFF → t.reg x = r) ∧ (∀ y, y ≠ x → t.reg y = s.reg y) ∧
    t = { s with v := t.v, opcode := wordAt s, pc := s.pc + 2, rndIn := t.rndIn, draws := t.draws })

/-- RND Vx, kk completes in every state, with the byte of the STEP or, where the host gave none, the free value of the
model (log 2, DESIGN CHOICE: the statement holds for every value of it); a draw is never taken twice. -/
def Obligations.RndCompletesOnItsInputByte : Prop :=
  ∀ (x : Reg) (kk : Byte) (s : State), ∃ t, exec (.rnd x kk) s = .next t ∧
    t.reg x = (match s.rndIn with | some r => r | none => Config.rnd s.draws) &&& kk ∧
    (∀ y, y ≠ x → t.reg y = s.reg y) ∧ t.rndIn = none ∧ t.draws = s.draws + 1 ∧
    t = { s with v := t.v, rndIn := t.rndIn, draws := t.draws }

/-! ## Index register and memory (`spec/42_index_memory.md`) -/

/-- R110 LD I, nnn; R111 ADD I, Vx; R112 LD F, Vx: I becomes nnn, (I + Vx) mod 2^16, or 0x050 + 5 * Vx with the whole
byte Vx (at most 0x54B); nothing else changes, VF included. -/
def Obligations.IndexRegisterInstructions : Prop :=
  Encodes 0xF000 0xA000 (fun w => .ldI (nnnOf w)) ∧ Encodes 0xF0FF 0xF01E (fun w => .addI (xOf w)) ∧
  Encodes 0xF0FF 0xF029 (fun w => .ldFont (xOf w)) ∧
  (∀ (nnn : BitVec 12) (s : State), ∃ t, exec (.ldI nnn) s = .next t ∧ t.i.toNat = nnn.toNat ∧ t = { s with i := t.i }) ∧
  (∀ (x : Reg) (s : State), ∃ t, exec (.addI x) s = .next t ∧ t.i.toNat = (s.i.toNat + (s.reg x).toNat) % 65536 ∧
    t = { s with i := t.i }) ∧
  (∀ (x : Reg) (s : State), ∃ t, exec (.ldFont x) s = .next t ∧ t.i.toNat = 0x050 + 5 * (s.reg x).toNat ∧
    t.i.toNat ≤ 0x54B ∧ t = { s with i := t.i })

/-- R113 LD B, Vx: with I + 2 in memory, the bytes at I, I + 1, I + 2 become the hundreds, tens and ones of Vx, every
other byte of memory reads as before, and nothing else changes (I included); else the STEP faults with MEM_RANGE and
writes nothing. -/
def Obligations.BcdStoresThreeDigits : Prop :=
  Encodes 0xF0FF 0xF033 (fun w => .storeBcd (xOf w)) ∧
  (∀ (x : Reg) (s : State), s.i.toNat + 2 ≤ 0xFFF → ∃ t, exec (.storeBcd x) s = .next t ∧
    (t.readByte s.i.toNat).toNat = (s.reg x).toNat / 100 ∧
    (t.readByte (s.i.toNat + 1)).toNat = (s.reg x).toNat / 10 % 10 ∧
    (t.readByte (s.i.toNat + 2)).toNat = (s.reg x).toNat % 10 ∧
    (∀ a, a < s.i.toNat ∨ s.i.toNat + 2 < a → t.readByte a = s.readByte a) ∧ t = { s with mem := t.mem }) ∧
  (∀ (x : Reg) (s : State), Fetches s (.storeBcd x) → 0xFFF < s.i.toNat + 2 → FaultsWith s .memRange)

/-- R114 LD [I], Vx: with I + x in memory, byte I + k becomes V[k] for every k up to x, every other byte of memory reads
as before, and nothing else changes (I included); else the STEP faults with MEM_RANGE and writes nothing. -/
def Obligations.StoreRegistersAtI : Prop :=
  Encodes 0xF0FF 0xF055 (fun w => .storeRegs (xOf w)) ∧
  (∀ (x : Reg) (s : State), s.i.toNat + x.val ≤ 0xFFF → ∃ t, exec (.storeRegs x) s = .next t ∧
    (∀ k : Reg, k ≤ x → t.readByte (s.i.toNat + k.val) = s.reg k) ∧
    (∀ a, a < s.i.toNat ∨ s.i.toNat + x.val < a → t.readByte a = s.readByte a) ∧ t = { s with mem := t.mem }) ∧
  (∀ (x : Reg) (s : State), Fetches s (.storeRegs x) → 0xFFF < s.i.toNat + x.val → FaultsWith s .memRange)

/-- R115 LD Vx, [I]: with I + x in memory, V[k] becomes byte I + k for every k up to x (VF too when x = F), and nothing
else changes (I and memory included); else the STEP faults with MEM_RANGE and writes no register. -/
def Obligations.LoadRegistersFromI : Prop :=
  Encodes 0xF0FF 0xF065 (fun w => .loadRegs (xOf w)) ∧
  (∀ (x : Reg) (s : State), s.i.toNat + x.val ≤ 0xFFF → ∃ t, exec (.loadRegs x) s = .next t ∧
    (∀ k : Reg, k ≤ x → t.reg k = s.readByte (s.i.toNat + k.val)) ∧ (∀ k : Reg, x < k → t.reg k = s.reg k) ∧
    t = { s with v := t.v }) ∧
  (∀ (x : Reg) (s : State), Fetches s (.loadRegs x) → 0xFFF < s.i.toNat + x.val → FaultsWith s .memRange)

/-- The round trip the spec names in R115's corner case: what LD [I], Vx stored, LD Vx, [I] reads back into V0..Vx, in
any state with that memory and I, whatever its registers hold. -/
def Obligations.LoadReadsBackWhatStoreWrote : Prop :=
  ∀ (x : Reg) (s t u : State), s.i.toNat + x.val ≤ 0xFFF → exec (.storeRegs x) s = .next t → u.mem = t.mem → u.i = t.i →
    ∃ u', exec (.loadRegs x) u = .next u' ∧ (∀ k : Reg, k ≤ x → u'.reg k = s.reg k) ∧ u'.i = s.i

/-! ## Display (`spec/43_display.md`) -/

/-- R120 CLS: every pixel becomes unlit and nothing else changes. -/
def Obligations.ClsClearsTheFramebuffer : Prop :=
  Encodes 0xF0FF 0x00E0 (fun _ => .cls) ∧
  ∀ s : State, ∃ t, exec .cls s = .next t ∧ (∀ p, t.pixel p = 0) ∧ t = { s with fb := t.fb }

/-- R121 DRW Vx, Vy, n, when the sprite's bytes lie in memory and its set bits on the screen: every pixel under a set
bit is XORed between lit and unlit, no other pixel changes, VF becomes 1 if one of them was lit and else 0, and nothing
else changes. n = 0 draws nothing and sets VF = 0. Bit 7 as the leftmost column is the spec's "[from general knowledge,
not in source]" (R122; log 11), and the row anchor mod 64 the resolution of C1 (log 14). -/
def Obligations.DrawXorsTheSprite : Prop :=
  Encodes 0xF000 0xD000 (fun w => .drw (xOf w) (yOf w) (nOf w).toNat) ∧
  ∀ (x y : Reg) (n : Nat) (s : State), (n = 0 ∨ s.i.toNat + n - 1 ≤ 0xFFF) →
    (∀ p, SpriteCovers s x y n p → p ≤ 2047) →
    ∃ t, exec (.drw x y n) s = .next t ∧
      (∀ p, SpriteCovers s x y n p → t.pixel p = s.pixel p ^^^ 0xFFFFFFFF) ∧
      (∀ p, ¬ SpriteCovers s x y n p → t.pixel p = s.pixel p) ∧
      ((∃ p, SpriteCovers s x y n p ∧ s.pixel p = 0xFFFFFFFF) → t.reg 15 = 1) ∧
      ((¬ ∃ p, SpriteCovers s x y n p ∧ s.pixel p = 0xFFFFFFFF) → t.reg 15 = 0) ∧
      (∀ z, z ≠ 15 → t.reg z = s.reg z) ∧ t = { s with fb := t.fb, v := t.v }

/-- R121's faults, in R144's order: MEM_RANGE when a sprite byte lies past 0xFFF, whatever its bits; else FB_RANGE when
a set bit lies past pixel 2047. Nothing is drawn. Bit order and row anchor as in DrawXorsTheSprite (logs 11 and 14). -/
def Obligations.DrawFaultsOutOfRange : Prop :=
  (∀ (x y : Reg) (n : Nat) (s : State), Fetches s (.drw x y n) → 0 < n → 0xFFF < s.i.toNat + n - 1 →
    FaultsWith s .memRange) ∧
  (∀ (x y : Reg) (n : Nat) (s : State), Fetches s (.drw x y n) → (n = 0 ∨ s.i.toNat + n - 1 ≤ 0xFFF) →
    (∃ p, SpriteCovers s x y n p ∧ 2047 < p) → FaultsWith s .fbRange)

/-- R123 for every sprite: drawing the same sprite twice at the same place leaves every pixel as it was, and the second
draw reports a collision exactly when a pixel of the sprite was unlit before the first. The second draw may come in any
state with the first's framebuffer, memory and I in which Vx and Vy hold what they held; right after the first is such a
state when neither is VF, which the first draw writes. In a state whose pixels are lit or unlit, which the invariant
says. Which pixels the sprite covers rests on the bit order (log 11, PRESUMED) and the row anchor mod 64 (log 14). -/
def Obligations.DrawingTwiceRestoresThePixels : Prop :=
  ∀ (x y : Reg) (n : Nat) (s t : State), s.Inv → s.halted = false → exec (.drw x y n) s = .next t → t.halted = false →
    (∀ t' : State, t'.fb = t.fb → t'.mem = t.mem → t'.i = t.i → t'.reg x = s.reg x → t'.reg y = s.reg y →
      ∃ u, exec (.drw x y n) t' = .next u ∧ (∀ p, u.pixel p = s.pixel p) ∧ u.fb = s.fb ∧
        (u.reg 15 = 1 ↔ ∃ p, SpriteCovers s x y n p ∧ s.pixel p = 0)) ∧
    (x ≠ 15 → y ≠ 15 → t.reg x = s.reg x ∧ t.reg y = s.reg y)

/-- R124: an operation that changes the framebuffer is RESET, or a STEP that runs 00E0 or Dxyn; the host sees any pixel
through FB_READ. -/
def Obligations.OnlyClsAndDrwChangeTheFramebuffer : Prop :=
  (∀ (font : Font) (s : State) (p : Fin 2048), perform font (.fbRead p) s = .next (s, .pixel (s.pixel p.val))) ∧
  ∀ (font : Font) (op : HostOp) (s t : State) (r : Reply), perform font op s = .next (t, r) → t.fb ≠ s.fb →
    op = .reset ∨ ((∃ rnd, op = .step rnd) ∧ (Fetches s .cls ∨ ∃ x y n, Fetches s (.drw x y n)))

/-! ## Keypad and timers (`spec/44_input_timers.md`) -/

/-- R130 SKP Vx and R131 SKNP Vx: with Vx = k in 0..15, PC moves 2 further exactly when key[k] is nonzero, or zero, and
nothing else changes; with Vx above 15 the STEP faults with KEY_RANGE. -/
def Obligations.SkipsOnAKey : Prop :=
  Encodes 0xF0FF 0xE09E (fun w => .skp (xOf w)) ∧ Encodes 0xF0FF 0xE0A1 (fun w => .sknp (xOf w)) ∧
  (∀ (x k : Reg) (s : State), (s.reg x).toNat = k.val → s.key[k] ≠ 0 →
    exec (.skp x) s = .next { s with pc := s.pc + 2 } ∧ exec (.sknp x) s = .next s) ∧
  (∀ (x k : Reg) (s : State), (s.reg x).toNat = k.val → s.key[k] = 0 →
    exec (.skp x) s = .next s ∧ exec (.sknp x) s = .next { s with pc := s.pc + 2 }) ∧
  (∀ (x : Reg) (s : State), (Fetches s (.skp x) ∨ Fetches s (.sknp x)) → 15 < (s.reg x).toNat → FaultsWith s .keyRange)

/-- R133 LD Vx, K: with a key pressed, Vx becomes the lowest pressed index and nothing else changes; with none, only PC
changes, back by 2, so that a STEP leaves all but `opcode` as it was; the STEP returns STEP_OK in both cases. -/
def Obligations.WaitForAKey : Prop :=
  Encodes 0xF0FF 0xF00A (fun w => .waitKey (xOf w)) ∧
  (∀ (x k : Reg) (s : State), s.key[k] ≠ 0 → (∀ j : Reg, j < k → s.key[j] = 0) →
    SetsReg (exec (.waitKey x) s) s x (BitVec.ofNat 8 k.val)) ∧
  (∀ (x : Reg) (s : State), (∀ k : Reg, s.key[k] = 0) → exec (.waitKey x) s = .next { s with pc := s.pc - 2 }) ∧
  (∀ (x : Reg) (s : State), Fetches s (.waitKey x) → (∀ k : Reg, s.key[k] = 0) →
    step s = .next { s with opcode := wordAt s }) ∧
  (∀ (font : Font) (rnd : Byte) (x : Reg) (s : State), Fetches s (.waitKey x) →
    ∃ t, perform font (.step rnd) s = .next (t, .stepOk))

/-- R132 LD Vx, DT; R134 LD DT, Vx; R135 LD ST, Vx: the one register or timer named is written and nothing else
changes. -/
def Obligations.TimerInstructions : Prop :=
  Encodes 0xF0FF 0xF007 (fun w => .getDt (xOf w)) ∧ Encodes 0xF0FF 0xF015 (fun w => .setDt (xOf w)) ∧
  Encodes 0xF0FF 0xF018 (fun w => .setSt (xOf w)) ∧
  ∀ (x : Reg) (s : State),
    SetsReg (exec (.getDt x) s) s x s.dt ∧
    exec (.setDt x) s = .next { s with dt := s.reg x } ∧ exec (.setSt x) s = .next { s with st := s.reg x }

/-! ## The STEP operation, decode and encode (`spec/30_encoding.md`) -/

/-- R62: a step of a running core whose word decodes to an instruction is `exec` of it on the state with `opcode` the
word and PC advanced by 2 (no wrap), at an odd PC too. -/
def Obligations.StepRunsTheDecodedInstruction : Prop :=
  ∀ (s : State) (i : Instr), Fetches s i →
    step s = exec i { s with opcode := wordAt s, pc := s.pc + 2 } ∧ (s.pc + 2).toNat = s.pc.toNat + 2

/-- R61: with PC above 0xFFE the STEP faults with FETCH_RANGE; no byte is read and `opcode` keeps its value. -/
def Obligations.FetchPastTheEndFaults : Prop :=
  ∀ s : State, s.halted = false → 0xFFE < s.pc.toNat →
    step s = .next { s with halted := true, faultCause := .fetchRange, faultPc := s.pc }

/-- R72: what the operation STEP(rnd) does and returns, case by case: halted; FETCH_RANGE; no row matches; an
instruction executed on the fetched state with rnd as its input. In each of the three fault cases, the last being a fault
the executed instruction raises, the state is the one before the STEP with the halt record set, and with `opcode` updated
if the fetch happened. `rndIn` is the model's carrier of rnd (log 2, DESIGN CHOICE): set for the STEP and clear after
it; that it is clear before every operation of a run is said by EveryScheduleKeepsTheInvariant. -/
def Obligations.StepOperationFollowsTheCycle : Prop :=
  ∀ (font : Font) (rnd : Byte) (s : State), s.rndIn = none →
    (s.halted = true → perform font (.step rnd) s = .next (s, .stepHalted s.faultCause)) ∧
    (s.halted = false → 0xFFE < s.pc.toNat → perform font (.step rnd) s =
      .next ({ s with halted := true, faultCause := .fetchRange, faultPc := s.pc }, .stepHalted .fetchRange)) ∧
    (Runs s → (∀ i, decode (wordAt s) ≠ .ok i) → perform font (.step rnd) s =
      .next ({ s with opcode := wordAt s, halted := true, faultCause := .invalidOpcode, faultPc := s.pc },
        .stepHalted .invalidOpcode)) ∧
    (∀ i t, Fetches s i → exec i { s with opcode := wordAt s, pc := s.pc + 2, rndIn := some rnd } = .next t →
      perform font (.step rnd) s =
        .next ({ t with rndIn := none }, if t.halted then .stepHalted t.faultCause else .stepOk)) ∧
    (∀ i t, Fetches s i → exec i { s with opcode := wordAt s, pc := s.pc + 2, rndIn := some rnd } = .next t →
      t.halted = true → perform font (.step rnd) s =
        .next ({ s with opcode := wordAt s, halted := true, faultCause := t.faultCause, faultPc := s.pc },
          .stepHalted t.faultCause))

/-- R67: the words that decode to nothing are exactly the four listed sets, with the rule's count in each
family, 13872 in all; a STEP that fetches one
faults with INVALID_OPCODE. -/
def Obligations.InvalidWords : Prop :=
  (∀ w : Word, (∀ i, decode w ≠ .ok i) ↔
    (familyOf w = 0x0 ∧ kkOf w ≠ 0xE0 ∧ kkOf w ≠ 0xEE) ∨
    (familyOf w = 0x8 ∧ (nOf w = 0x8 ∨ nOf w = 0x9 ∨ nOf w = 0xA ∨ nOf w = 0xB ∨ nOf w = 0xC ∨ nOf w = 0xD ∨ nOf w = 0xF)) ∨
    (familyOf w = 0xE ∧ kkOf w ≠ 0x9E ∧ kkOf w ≠ 0xA1) ∨
    (familyOf w = 0xF ∧ kkOf w ≠ 0x07 ∧ kkOf w ≠ 0x0A ∧ kkOf w ≠ 0x15 ∧ kkOf w ≠ 0x18 ∧ kkOf w ≠ 0x1E ∧ kkOf w ≠ 0x29 ∧
      kkOf w ≠ 0x33 ∧ kkOf w ≠ 0x55 ∧ kkOf w ≠ 0x65)) ∧
  (∀ f : Fin 16, (List.range 4096).countP (fun n => !(decode (BitVec.ofNat 16 (f.val * 4096 + n))).isOk) =
    [4064, 0, 0, 0, 0, 0, 0, 0, 1792, 0, 0, 0, 0, 0, 4064, 3952][f.val]) ∧
  [4064, 0, 0, 0, 0, 0, 0, 0, 1792, 0, 0, 0, 0, 0, 4064, 3952].sum = 13872 ∧
  (∀ s : State, Runs s → (∀ i, decode (wordAt s) ≠ .ok i) → FaultsWith s .invalidOpcode)

/-- R66: the opcode map has 34 rows, each valid word selects exactly one of them, the row of the instruction it decodes
to, and a word that selects a row decodes. (Which operation each row names is said by the statements about the
instructions; for the nine rows of 8xyN it is partly the spec's general knowledge, log 12.) -/
def Obligations.OpcodeMapIsUnambiguous : Prop :=
  opcodeMap.length = 34 ∧ opcodeMap.Nodup ∧
  (∀ (w : Word) (i : Instr), decode w = .ok i →
    i.row ∈ opcodeMap ∧ i.row.selectedBy w = true ∧ (∀ r ∈ opcodeMap, r.selectedBy w = true → r = i.row)) ∧
  (∀ (w : Word) (r : Row), r ∈ opcodeMap → r.selectedBy w = true → ∃ i, decode w = .ok i ∧ i.row = r)

/-- R68: op[3:0] of 5xy0 and 9xy0, op[11:8] of 00E0 and 00EE and the y field of 8xy6 and 8xyE make no difference. That
the shifts do not read Vy is the spec's "[from general knowledge, not in source]" (D10; log 13, PRESUMED). -/
def Obligations.UnexaminedBitsMakeNoDifference : Prop :=
  (∀ w w' : Word, (familyOf w = 0x5 ∨ familyOf w = 0x9) → w &&& 0xFFF0 = w' &&& 0xFFF0 → decode w' = decode w) ∧
  (∀ w w' : Word, (decode w = .ok .cls ∨ decode w = .ok .ret) → w &&& 0xF0FF = w' &&& 0xF0FF → decode w' = decode w) ∧
  (∀ (x y y' : Reg) (s : State), exec (.shr x y') s = exec (.shr x y) s ∧ exec (.shl x y') s = exec (.shl x y) s)

/-- Decode and encode agree: every well-formed instruction, with every operand at every value, decodes from its word to
itself, alone and at the head of any bytes. -/
def Obligations.DecodeOfEncodeIsTheInstruction : Prop :=
  ∀ i : Instr, i.wf = true →
    decode (encode i) = .ok i ∧ ∀ rest, decodeBytes (bytesOfWord (encode i) ++ rest) = .ok (i, rest)

/-- A word that decodes is its instruction's word, up to the bits the row does not examine, which the encoder writes as
0 (log 9); and the instruction is well formed. -/
def Obligations.EncodeOfDecodeIsTheWord : Prop :=
  ∀ (w : Word) (i : Instr), decode w = .ok i → i.wf = true ∧
    encode i = (match i with
      | .cls | .ret => w &&& 0xF0FF
      | .seReg _ _ | .sneReg _ _ => w &&& 0xFFF0
      | _ => w)

/-- Words written out from R66's rows decode to what they stand for (a sanity check). -/
def Obligations.SampleWordsDecode : Prop :=
  decode 0b0000_0000_1110_0000 = .ok .cls ∧ decode 0b0001_0010_0011_0100 = .ok (.jp 0x234) ∧
  decode 0b0110_1010_0000_0101 = .ok (.ldImm 0xA 0x05) ∧ decode 0b1000_0000_0001_0100 = .ok (.addReg 0 1) ∧
  decode 0b1101_0001_0010_0101 = .ok (.drw 1 2 5) ∧ decode 0b1111_0011_0110_0101 = .ok (.loadRegs 3) ∧
  decode 0b1110_0101_1001_1110 = .ok (.skp 5) ∧ decode 0b1010_0011_0000_0000 = .ok (.ldI 0x300) ∧
  (∀ i, decode 0x0123 ≠ .ok i)

/-! ## Faults and the halted state (`spec/60_exceptions.md`) -/

/-- R141: a STEP that faults leaves the state it started from, with `halted`, `fault_cause`, `fault_pc` = PC set and
`opcode` the fetched word (unless nothing was fetched). No other field differs: registers, stack, timers, keys, pixels,
memory and PC are as they were. The operation returns STEP_HALTED with the cause. -/
def Obligations.FaultsArePrecise : Prop :=
  ∀ (s t : State), s.halted = false → step s = .next t → t.halted = true →
    t = { s with opcode := if t.faultCause = .fetchRange then s.opcode else wordAt s
                 halted := true
                 faultCause := t.faultCause
                 faultPc := s.pc } ∧
    (∀ (font : Font) (rnd : Byte) (u : State) (r : Reply), perform font (.step rnd) s = .next (u, r) →
      u.halted = true → r = .stepHalted u.faultCause)

/-- R140: each cause is raised exactly on its condition, by the instructions the table names, in the order of R144
(FETCH_RANGE, INVALID_OPCODE, then the instruction's own checks), and has its code. For a running core with a legal
SP. Which pixels FB_RANGE's sprite covers rests on the bit order (log 11, PRESUMED) and the row anchor mod 64
(log 14). -/
def Obligations.EachFaultHasItsCondition : Prop :=
  ([FaultCause.noFault, .invalidOpcode, .stackOverflow, .stackUnderflow, .keyRange, .fetchRange, .memRange,
    .fbRange].map FaultCause.code = [0, 1, 2, 3, 4, 5, 6, 7]) ∧
  ∀ (s t : State), s.halted = false → s.sp.toNat ≤ 16 → step s = .next t →
    ((t.halted = true ∧ t.faultCause = .fetchRange) ↔ 0xFFE < s.pc.toNat) ∧
    ((t.halted = true ∧ t.faultCause = .invalidOpcode) ↔ s.pc.toNat ≤ 0xFFE ∧ ∀ i, decode (wordAt s) ≠ .ok i) ∧
    ((t.halted = true ∧ t.faultCause = .stackOverflow) ↔ s.sp = 16 ∧ ∃ nnn, Fetches s (.call nnn)) ∧
    ((t.halted = true ∧ t.faultCause = .stackUnderflow) ↔ s.sp = 0 ∧ Fetches s .ret) ∧
    ((t.halted = true ∧ t.faultCause = .keyRange) ↔
      ∃ x : Reg, (Fetches s (.skp x) ∨ Fetches s (.sknp x)) ∧ 15 < (s.reg x).toNat) ∧
    ((t.halted = true ∧ t.faultCause = .memRange) ↔
      (∃ x y n, Fetches s (.drw x y n) ∧ 0 < n ∧ 0xFFF < s.i.toNat + n - 1) ∨
      (∃ x, Fetches s (.storeBcd x) ∧ 0xFFF < s.i.toNat + 2) ∨
      (∃ x : Reg, (Fetches s (.storeRegs x) ∨ Fetches s (.loadRegs x)) ∧ 0xFFF < s.i.toNat + x.val)) ∧
    ((t.halted = true ∧ t.faultCause = .fbRange) ↔
      ∃ x y n, Fetches s (.drw x y n) ∧ (n = 0 ∨ s.i.toNat + n - 1 ≤ 0xFFF) ∧ ∃ p, SpriteCovers s x y n p ∧ 2047 < p)

/-- R142: while halted, STEP changes nothing and returns STEP_HALTED with the recorded cause; every operation but RESET
keeps the halt record and otherwise does what it does on the same state not halted; RESET clears it. Between operations
`rndIn` is none, as the premise asks: EveryScheduleKeepsTheInvariant says so. -/
def Obligations.HaltIsHeldUntilReset : Prop :=
  ∀ (font : Font) (s : State), s.halted = true → s.rndIn = none →
    (∀ rnd, perform font (.step rnd) s = .next (s, .stepHalted s.faultCause)) ∧
    (∀ (op : HostOp), op ≠ .reset → (∀ rnd, op ≠ .step rnd) → ∃ t r, perform font op s = .next (t, r) ∧
      t.halted = true ∧ t.faultCause = s.faultCause ∧ t.faultPc = s.faultPc ∧
      (op ≠ .statusRead → perform font op { s with halted := false } = .next ({ t with halted := false }, r))) ∧
    (∃ t r, perform font .reset s = .next (t, r) ∧ t.halted = false)

/-- R143 over whole schedules: from a faulted state no sequence of operations without RESET leads to a state that is not
faulted, and the recorded cause and address stay. -/
def Obligations.NoReturnFromAFault : Prop :=
  ∀ (font : Font) (ops : List HostOp) (s t : State), .reset ∉ ops → s.Faulted → runOps font ops s = .next t →
    t.Faulted ∧ t.faultCause = s.faultCause ∧ t.faultPc = s.faultPc

/-- A safe run without RESET is safe at every point before its end. -/
def Obligations.SafeRunsHaveSafePrefixes : Prop :=
  ∀ (font : Font) (ops more : List HostOp) (s : State), .reset ∉ ops ++ more → SafeRun font (ops ++ more) s →
    SafeRun font ops s

/-- R147: every instruction is executable in every state that is not halted: the step answers a next state, neither a
stop nor a refusal, in every state with a legal SP (0..16, R25). -/
def Obligations.EveryInstructionIsExecutable : Prop :=
  (∀ (i : Instr) (s : State), s.sp.toNat ≤ 16 → ∃ t, exec i s = .next t) ∧
  (∀ s : State, s.sp.toNat ≤ 16 → ∃ t, step s = .next t)

/-- The model's own stop (log 7, DESIGN CHOICE): an instruction answers no next state exactly when SP is above 16, which
R25 calls no legal value, and it is CALL or RET; and with SP above 16 both of them do stop, with
`stackPointerOutOfRange`. -/
def Obligations.OnlyAnIllegalSpStops : Prop :=
  (∀ (i : Instr) (s : State), (∀ t, exec i s ≠ .next t) ↔
    16 < s.sp.toNat ∧ (i = .ret ∨ ∃ nnn, i = .call nnn)) ∧
  (∀ (nnn : BitVec 12) (s : State), 16 < s.sp.toNat →
    exec .ret s = .fault .stackPointerOutOfRange ∧ exec (.call nnn) s = .fault .stackPointerOutOfRange)

/-! ## State, invariants and runs (`spec/10_state.md`, `spec/70_reset_and_hazards.md`) -/

/-- R35 and R160: what RESET leaves, for every FONT and from every state: the table of R35, FONT at 0x050..0x09F and 0
in the rest of memory. -/
def Obligations.ResetLeavesTheResetTable : Prop :=
  ∀ (font : Font) (s : State), ∃ t, perform font .reset s = .next (t, .done) ∧ t = resetWith font ∧
    (∀ x, t.reg x = 0) ∧ t.i = 0 ∧ t.pc = 0x200 ∧ t.sp = 0 ∧ (∀ j : Fin 16, t.stack[j] = 0) ∧ t.dt = 0 ∧ t.st = 0 ∧
    (∀ k : Reg, t.key[k] = 0) ∧ (∀ p, t.pixel p = 0) ∧
    (∀ k : Fin 80, t.readByte (0x050 + k.val) = font[k]) ∧
    (∀ a, a < 0x050 ∨ 0x09F < a → t.readByte a = 0) ∧
    t.opcode = 0 ∧ t.halted = false ∧ t.faultCause.code = 0 ∧ t.faultPc = 0

/-- The machine's reset state is what RESET leaves with the default FONT, its memory lists nothing, and the bytes at
0x050..0x09F are the 80 of R37's default table, written out: glyphs 0 to F, five bytes each. These bytes are the spec's
"[from general knowledge, not in source]" (R37; log 1, PRESUMED). -/
def Obligations.ResetStateHasTheDefaultFont : Prop :=
  core.reset = State.reset ∧ resetWith defaultFont = State.reset ∧ State.reset.mem = [] ∧
  (∀ k : Fin 80, State.reset.readByte (0x050 + k.val) = defaultFont[k]) ∧
  (List.range 80).map (fun k => State.reset.readByte (0x050 + k)) =
    [0xF0, 0x90, 0x90, 0x90, 0xF0, 0x20, 0x60, 0x20, 0x20, 0x70, 0xF0, 0x10, 0xF0, 0x80, 0xF0, 0xF0, 0x10, 0xF0, 0x10, 0xF0] ++
    [0x90, 0x90, 0xF0, 0x10, 0x10, 0xF0, 0x80, 0xF0, 0x10, 0xF0, 0xF0, 0x80, 0xF0, 0x90, 0xF0, 0xF0, 0x10, 0x20, 0x40, 0x40] ++
    [0xF0, 0x90, 0xF0, 0x90, 0xF0, 0xF0, 0x90, 0xF0, 0x10, 0xF0, 0xF0, 0x90, 0xF0, 0x90, 0x90, 0xE0, 0x90, 0xE0, 0x90, 0xE0] ++
    [0xF0, 0x80, 0x80, 0x80, 0xF0, 0xE0, 0x90, 0x90, 0x90, 0xE0, 0xF0, 0x80, 0xF0, 0x80, 0xF0, 0xF0, 0x80, 0xF0, 0x80, 0x80]

/-- The invariant holds at reset. -/
def Obligations.ResetMeetsTheInvariant : Prop := State.reset.Inv

/-- Every step keeps the invariant: SP in 0..16 (R25), PC at most 0x10FE (R24), return addresses at most 0x1000 (R80),
every pixel lit or unlit (R30), the halt record consistent (R33), memory and framebuffer in canonical form (logs 1
and 5). -/
def Obligations.StepKeepsTheInvariant : Prop :=
  ∀ (s t : State), s.Inv → step s = .next t → t.Inv

/-- Every operation of the host answers a next state from a state that meets the invariant, and keeps it; so every
schedule of operations from reset, for every FONT and every random byte, runs to its end in a state that meets it. The
carrier `rndIn` of the random byte is none between operations (log 2, DESIGN CHOICE): RESET leaves it so, and every
operation and every step keeps it so. -/
def Obligations.EveryScheduleKeepsTheInvariant : Prop :=
  (∀ (font : Font) (op : HostOp) (s : State), s.Inv → ∃ t r, perform font op s = .next (t, r) ∧ t.Inv ∧
    (s.rndIn = none → t.rndIn = none)) ∧
  (∀ s t : State, step s = .next t → s.rndIn = none → t.rndIn = none) ∧
  (∀ (font : Font) (ops : List HostOp) (s : State), s.Inv → s.rndIn = none →
    ∃ t, runOps font ops s = .next t ∧ t.Inv ∧ t.rndIn = none) ∧
  (∀ (font : Font) (ops : List HostOp), ∃ t, runOps font ops (resetWith font) = .next t ∧ t.Inv ∧ t.rndIn = none)

/-- Which instruction may write what, over all instructions, when it does not fault (R20's table of written registers,
R23, R25, R26, R27, R28, R29, R40): a register only an instruction that names it as written; I only Annn, Fx1E, Fx29; SP
only 2nnn and 00EE; a stack slot only 2nnn; DT only Fx15; ST only Fx18; memory only Fx33 and Fx55; the keypad and
`opcode` none. -/
def Obligations.EachPieceOfStateHasItsWriters : Prop :=
  ∀ (i : Instr) (s t : State), exec i s = .next t →
    (∀ y : Reg, t.reg y ≠ s.reg y → match i with
      | .ldImm x _ | .addImm x _ | .ldReg x _ | .orReg x _ | .andReg x _ | .xorReg x _ | .rnd x _ | .getDt x
      | .waitKey x => y = x
      | .addReg x _ | .subReg x _ | .shr x _ | .subnReg x _ | .shl x _ => y = x ∨ y = 15
      | .drw _ _ _ => y = 15
      | .loadRegs x => y ≤ x
      | _ => False) ∧
    (t.i ≠ s.i → (∃ nnn, i = .ldI nnn) ∨ (∃ x, i = .addI x) ∨ ∃ x, i = .ldFont x) ∧
    (t.sp ≠ s.sp → i = .ret ∨ ∃ nnn, i = .call nnn) ∧
    (t.stack ≠ s.stack → ∃ nnn, i = .call nnn) ∧
    (t.dt ≠ s.dt → ∃ x, i = .setDt x) ∧
    (t.st ≠ s.st → ∃ x, i = .setSt x) ∧
    (t.mem ≠ s.mem → (∃ x, i = .storeBcd x) ∨ ∃ x, i = .storeRegs x) ∧
    t.key = s.key ∧ t.opcode = s.opcode

/-- R88's list of what moves PC: an instruction that is not a jump, call, return, skip or key wait leaves the advanced PC
alone (or faults). -/
def Obligations.OnlyControlTransfersMovePc : Prop :=
  ∀ (i : Instr) (s t : State), s.halted = false → exec i s = .next t → t.halted = false → t.pc ≠ s.pc →
    match i with
    | .ret | .jp _ | .call _ | .jpV0 _ => True
    | .seImm _ _ | .sneImm _ _ | .seReg _ _ | .sneReg _ _ | .skp _ | .sknp _ => t.pc = s.pc + 2
    | .waitKey _ => t.pc = s.pc - 2
    | _ => False

/-- R32: every fetch writes `opcode`, and a program cannot observe it. No instruction reads it: what an executed
instruction does is the same whatever `opcode` holds, and `opcode` is left as it is. What it holds before a fetch makes
no difference to the state after. -/
def Obligations.OpcodeIsNotObservable : Prop :=
  (∀ (i : Instr) (s t : State) (w : Word), exec i s = .next t →
    exec i { s with opcode := w } = .next { t with opcode := w }) ∧
  (∀ (s : State) (w : Word), Runs s →
    step { s with opcode := w } = step s ∧ ∀ t, step s = .next t → t.opcode = wordAt s)

/-- R28, "No instruction reads it": ST makes no difference to anything an instruction does, but for ST itself, which only
Fx18 replaces. -/
def Obligations.NoInstructionReadsTheSoundTimer : Prop :=
  ∀ (i : Instr) (s : State) (b : Byte),
    ((∃ x, i = .setSt x) → exec i { s with st := b } = exec i s) ∧
    ((∀ x, i ≠ .setSt x) → ∀ t, exec i s = .next t → exec i { s with st := b } = .next { t with st := b })

/-- R72, "rnd: 8-bit, used only by Cxkk": a STEP of any other word gives the same state whatever the random byte. -/
def Obligations.OnlyRndUsesTheRandomByte : Prop :=
  ∀ (s : State) (r r' : Byte), (∀ x kk, decode (wordAt s) ≠ .ok (.rnd x kk)) → stepWith r s = stepWith r' s

/-- A RET undoes a CALL: after CALL from SP below 16, RET in any state with that stack and SP gives back the PC and the
SP of before, the sequence of the spec's example S5. -/
def Obligations.ReturnUndoesCall : Prop :=
  ∀ (nnn : BitVec 12) (s t u : State), s.sp.toNat < 16 → exec (.call nnn) s = .next t → u.stack = t.stack → u.sp = t.sp →
    exec .ret u = .next { u with sp := s.sp, pc := s.pc }

/-- A jump to itself runs for ever (R167, with R81's corner case): after any number of STEPs the state is as before but
for `opcode`, the core not halted. -/
def Obligations.JumpToSelfRunsForEver : Prop :=
  ∀ (nnn : BitVec 12) (s : State) (k : Nat), Fetches s (.jp nnn) → s.pc.toNat = nnn.toNat →
    core.run (k + 1) s = .next { s with opcode := wordAt s } ∧ { s with opcode := wordAt s }.FinishedAt s.pc

/-- A key wait with no key pressed runs for ever (R167, R133): TICKs and STEPs in any order leave PC at the wait, the
core not halted, and V0..VF, I, SP, the stack, the keypad, the framebuffer and memory as they were. Only `opcode` and the
two timers may differ (and `rndIn`, the model's carrier of rnd, which a STEP leaves clear). -/
def Obligations.KeyWaitRunsForEver : Prop :=
  ∀ (font : Font) (x : Reg) (s : State) (ops : List HostOp), Fetches s (.waitKey x) → (∀ k : Reg, s.key[k] = 0) →
    (∀ op ∈ ops, op = .tick ∨ ∃ rnd, op = .step rnd) →
    ∃ t, runOps font ops s = .next t ∧ t.halted = false ∧ t.pc = s.pc ∧ t.v = s.v ∧ t.i = s.i ∧ t.sp = s.sp ∧
      t.stack = s.stack ∧ t.key = s.key ∧ t.fb = s.fb ∧ t.mem = s.mem ∧
      t = { s with opcode := t.opcode, dt := t.dt, st := t.st, rndIn := t.rndIn } ∧ Fetches t (.waitKey x)

/-- R51: a fetch sees the bytes a store wrote, in any later state with that memory. After Fx55 stored V0..Vx, a fetch
inside the stored bytes reads the word V[k] : V[k+1]; after Fx33 stored the digits of Vx, a fetch at I reads hundreds :
tens, one at I + 1 tens : ones, and one that takes in only the first or the last of the three bytes reads it beside the
byte that was there; after LOAD, a fetch inside the image reads the image's bytes. -/
def Obligations.FetchSeesEarlierStores : Prop :=
  (∀ (x k : Reg) (s t u : State), s.i.toNat + x.val ≤ 0xFFF → exec (.storeRegs x) s = .next t → u.mem = t.mem →
    ∀ h : k.val + 1 < 16, k.val + 1 ≤ x.val → u.pc.toNat = s.i.toNat + k.val →
    wordAt u = s.reg k ++ s.reg ⟨k.val + 1, h⟩) ∧
  (∀ (x : Reg) (s t u : State) (hundreds tens ones : Byte), s.i.toNat + 2 ≤ 0xFFF → exec (.storeBcd x) s = .next t →
    u.mem = t.mem → hundreds.toNat = (s.reg x).toNat / 100 → tens.toNat = (s.reg x).toNat / 10 % 10 →
    ones.toNat = (s.reg x).toNat % 10 →
    (u.pc.toNat + 1 = s.i.toNat → wordAt u = s.readByte u.pc.toNat ++ hundreds) ∧
    (u.pc.toNat = s.i.toNat → wordAt u = hundreds ++ tens) ∧
    (u.pc.toNat = s.i.toNat + 1 → wordAt u = tens ++ ones) ∧
    (u.pc.toNat = s.i.toNat + 2 → wordAt u = ones ++ s.readByte (u.pc.toNat + 1))) ∧
  (∀ (font : Font) (bytes : List Byte) (s u : State) (k : Nat), bytes.length ≤ 3584 →
    (∃ t, perform font (.load bytes) s = .next (t, .loadOk) ∧ u.mem = t.mem) →
    ∀ h : k + 1 < bytes.length, u.pc.toNat = 0x200 + k → wordAt u = bytes[k] ++ bytes[k + 1])

/-! ## Host operations (`spec/20_memory.md`, `spec/60_exceptions.md`) -/

/-- R55 LOAD: an image of at most 3584 bytes is copied to 0x200 on, no other byte of memory and no other state changes;
a longer one is refused with LOAD_TOO_LARGE and changes nothing. -/
def Obligations.LoadCopiesTheImage : Prop :=
  ∀ (font : Font) (bytes : List Byte) (s : State),
    (bytes.length ≤ 4096 - 0x200 → ∃ t, perform font (.load bytes) s = .next (t, .loadOk) ∧
      (∀ k (h : k < bytes.length), t.readByte (0x200 + k) = bytes[k]) ∧
      (∀ a, a < 0x200 ∨ 0x200 + bytes.length ≤ a → t.readByte a = s.readByte a) ∧ t = { s with mem := t.mem }) ∧
    (4096 - 0x200 < bytes.length → perform font (.load bytes) s = .next (s, .loadTooLarge))

/-- R152 TICK: each timer that is above 0 goes down by 1, one at 0 stays; nothing else changes; halted or not. -/
def Obligations.TickCountsTheTimersDown : Prop :=
  ∀ (font : Font) (s : State), ∃ t, perform font .tick s = .next (t, .done) ∧
    t.dt.toNat = s.dt.toNat - 1 ∧ t.st.toNat = s.st.toNat - 1 ∧ t = { s with dt := t.dt, st := t.st }

/-- R53 and R54: KEY_WRITE(k, v) sets key[k] and nothing else; FB_READ, ST_READ and STATUS_READ return the pixel, the
sound timer and the halt record and change nothing. -/
def Obligations.KeyWriteAndTheReads : Prop :=
  ∀ (font : Font) (s : State),
    (∀ (k : Reg) (b : Byte), ∃ t, perform font (.keyWrite k b) s = .next (t, .done) ∧ t.key[k] = b ∧
      (∀ j : Reg, j ≠ k → t.key[j] = s.key[j]) ∧ t = { s with key := t.key }) ∧
    (∀ (c : Fin 64) (r : Fin 32) (h : r.val * 64 + c.val < 2048),
      perform font (.fbRead ⟨r.val * 64 + c.val, h⟩) s = .next (s, .pixel (s.pixel (r.val * 64 + c.val)))) ∧
    perform font .stRead s = .next (s, .soundTimer s.st) ∧
    perform font .statusRead s = .next (s, .status s.halted s.faultCause.code s.faultPc)
end

