-- ==== Sys2Proof/Laws/Decode.lean ====
section
/-! SUPPORT. The fields of a word as numbers, the fields of a packed word, and the fields of a word that a row's mask
selects. -/

namespace Sys2Proof

/-! ## Fields as numbers -/

theorem familyOf_toNat (w : Word) : (familyOf w).toNat = w.toNat / 4096 := by
  have := w.isLt
  simp only [familyOf, BitVec.extractLsb'_toNat, Nat.shiftRight_eq_div_pow]
  omega

theorem xOf_val (w : Word) : (xOf w).val = w.toNat / 256 % 16 := by
  simp [xOf, Nat.shiftRight_eq_div_pow]

theorem yOf_val (w : Word) : (yOf w).val = w.toNat / 16 % 16 := by
  simp [yOf, Nat.shiftRight_eq_div_pow]

theorem kkOf_toNat (w : Word) : (kkOf w).toNat = w.toNat % 256 := by simp [kkOf]

theorem nnnOf_toNat (w : Word) : (nnnOf w).toNat = w.toNat % 4096 := by simp [nnnOf]

theorem nOf_toNat (w : Word) : (nOf w).toNat = w.toNat % 16 := by simp [nOf]

theorem regField_toNat (x : Reg) : (regField x).toNat = x.val := by
  have := x.isLt
  simp [regField]

/-- A word is its four nibbles' fields. -/
theorem toNat_eq_fields (w : Word) :
    w.toNat = (familyOf w).toNat * 4096 + (xOf w).val * 256 + (yOf w).val * 16 + (nOf w).toNat := by
  rw [familyOf_toNat, xOf_val, yOf_val, nOf_toNat]
  omega

/-! ## Packed words -/

theorem toNat_append_nat {m n : Nat} (a : BitVec m) (b : BitVec n) : (a ++ b).toNat = a.toNat * 2 ^ n + b.toNat := by
  rw [BitVec.toNat_append, ← Nat.shiftLeft_add_eq_or_of_lt b.isLt, Nat.shiftLeft_eq]

theorem packNnn_toNat (f : BitVec 4) (nnn : BitVec 12) : (packNnn f nnn).toNat = f.toNat * 4096 + nnn.toNat :=
  toNat_append_nat f nnn

theorem packXkk_toNat (f : BitVec 4) (x : Reg) (kk : Byte) :
    (packXkk f x kk).toNat = f.toNat * 4096 + x.val * 256 + kk.toNat := by
  refine (toNat_append_nat f (regField x ++ kk)).trans ?_
  have h := toNat_append_nat (regField x) kk
  rw [regField_toNat] at h
  omega

theorem packXyn_toNat (f : BitVec 4) (x y : Reg) (n : BitVec 4) :
    (packXyn f x y n).toNat = f.toNat * 4096 + x.val * 256 + y.val * 16 + n.toNat := by
  refine (toNat_append_nat f (regField x ++ (regField y ++ n))).trans ?_
  have h := toNat_append_nat (regField x) (regField y ++ n)
  have h' := toNat_append_nat (regField y) n
  rw [regField_toNat] at h h'
  omega

@[simp] theorem familyOf_packNnn (f : BitVec 4) (nnn : BitVec 12) : familyOf (packNnn f nnn) = f := by
  apply BitVec.eq_of_toNat_eq
  have := nnn.isLt
  rw [familyOf_toNat, packNnn_toNat]
  omega

@[simp] theorem nnnOf_packNnn (f : BitVec 4) (nnn : BitVec 12) : nnnOf (packNnn f nnn) = nnn := by
  apply BitVec.eq_of_toNat_eq
  have := nnn.isLt
  rw [nnnOf_toNat, packNnn_toNat]
  omega

@[simp] theorem familyOf_packXkk (f : BitVec 4) (x : Reg) (kk : Byte) : familyOf (packXkk f x kk) = f := by
  apply BitVec.eq_of_toNat_eq
  have := kk.isLt
  rw [familyOf_toNat, packXkk_toNat]
  omega

@[simp] theorem xOf_packXkk (f : BitVec 4) (x : Reg) (kk : Byte) : xOf (packXkk f x kk) = x := by
  apply Fin.ext
  have := kk.isLt
  rw [xOf_val, packXkk_toNat]
  omega

@[simp] theorem kkOf_packXkk (f : BitVec 4) (x : Reg) (kk : Byte) : kkOf (packXkk f x kk) = kk := by
  apply BitVec.eq_of_toNat_eq
  have := kk.isLt
  rw [kkOf_toNat, packXkk_toNat]
  omega

@[simp] theorem familyOf_packXyn (f : BitVec 4) (x y : Reg) (n : BitVec 4) : familyOf (packXyn f x y n) = f := by
  apply BitVec.eq_of_toNat_eq
  have := n.isLt
  rw [familyOf_toNat, packXyn_toNat]
  omega

@[simp] theorem xOf_packXyn (f : BitVec 4) (x y : Reg) (n : BitVec 4) : xOf (packXyn f x y n) = x := by
  apply Fin.ext
  have := n.isLt
  rw [xOf_val, packXyn_toNat]
  omega

@[simp] theorem yOf_packXyn (f : BitVec 4) (x y : Reg) (n : BitVec 4) : yOf (packXyn f x y n) = y := by
  apply Fin.ext
  have := n.isLt
  rw [yOf_val, packXyn_toNat]
  omega

@[simp] theorem nOf_packXyn (f : BitVec 4) (x y : Reg) (n : BitVec 4) : nOf (packXyn f x y n) = n := by
  apply BitVec.eq_of_toNat_eq
  have := n.isLt
  rw [nOf_toNat, packXyn_toNat]
  omega

/-! ## Words a mask selects -/

/-- A field that a mask keeps whole is the value's field. -/
theorem extract_of_mask {w m v : Word} {lo len : Nat} (hm : m.extractLsb' lo len = BitVec.allOnes len)
    (h : w &&& m = v) : w.extractLsb' lo len = v.extractLsb' lo len := by
  rw [← h, BitVec.extractLsb'_and, hm, BitVec.and_allOnes]

/-- What the mask F000 says of a word. -/
theorem family_of_maskF000 {w v : Word} (h : w &&& 0xF000 = v) : familyOf w = v.extractLsb' 12 4 :=
  extract_of_mask (by decide) h

/-- What the mask F00F says of a word. -/
theorem fields_of_maskF00F {w v : Word} (h : w &&& 0xF00F = v) :
    familyOf w = v.extractLsb' 12 4 ∧ nOf w = v.extractLsb' 0 4 :=
  ⟨extract_of_mask (by decide) h, extract_of_mask (by decide) h⟩

/-- What the mask F0FF says of a word. -/
theorem fields_of_maskF0FF {w v : Word} (h : w &&& 0xF0FF = v) :
    familyOf w = v.extractLsb' 12 4 ∧ kkOf w = v.extractLsb' 0 8 :=
  ⟨extract_of_mask (by decide) h, extract_of_mask (by decide) h⟩

end Sys2Proof
end

