-- ==== Sys2Proof/Laws/Sparse.lean ====
section
/-! SUPPORT. The laws of the sparse arrays: a read after a write, in every list; the canonical form kept; canonical
lists that read alike are equal. -/

namespace Sys2Proof.Machine

variable {α : Type}

/-! ## Reading after writing -/

theorem Sparse.find?_erase (k j : Nat) (l : List (Nat × α)) :
    Sparse.find? j (Sparse.erase k l) = if k = j then none else Sparse.find? j l := by
  induction l with
  | nil => simp [Sparse.erase, Sparse.find?]
  | cons c rest ih =>
    simp only [Sparse.erase] at ih ⊢
    by_cases hc : c.1 = k
    · simp only [hc, ne_eq, not_true_eq_false, decide_false, Bool.false_eq_true, not_false_eq_true,
        List.filter_cons_of_neg, ih, Sparse.find?]
      split <;> simp_all
    · simp only [ne_eq, hc, not_false_eq_true, decide_true, List.filter_cons_of_pos, Sparse.find?, ih]
      split <;> split <;> simp_all

theorem Sparse.find?_insert (k j : Nat) (a : α) (l : List (Nat × α)) (h : ∀ c ∈ l, c.1 ≠ k) :
    Sparse.find? j (Sparse.insert k a l) = if k = j then some a else Sparse.find? j l := by
  induction l with
  | nil => simp [Sparse.insert, Sparse.find?]
  | cons c rest ih =>
    have hc : c.1 ≠ k := h c (by simp)
    have ih := ih (fun d hd => h d (by simp [hd]))
    simp only [Sparse.insert]
    split
    · simp [Sparse.find?]
    · simp only [Sparse.find?, ih]
      split <;> split <;> simp_all

theorem Sparse.not_mem_erase (k : Nat) (l : List (Nat × α)) : ∀ c ∈ Sparse.erase k l, c.1 ≠ k := by
  simp [Sparse.erase]

theorem Sparse.find?_eq_some_iff {l : List (Nat × α)} (h : l.Pairwise (fun a b => a.1 < b.1)) (k : Nat) (a : α) :
    Sparse.find? k l = some a ↔ (k, a) ∈ l := by
  induction l with
  | nil => simp [Sparse.find?]
  | cons c rest ih =>
    obtain ⟨hc, hrest⟩ := List.pairwise_cons.1 h
    simp only [Sparse.find?, List.mem_cons]
    split <;> rename_i hk
    · constructor
      · intro he
        left
        cases c; simp_all
      · rintro (rfl | hm)
        · rfl
        · have := hc _ hm
          simp_all
    · rw [ih hrest]
      constructor
      · exact Or.inr
      · rintro (rfl | hm)
        · exact absurd rfl hk
        · exact hm

theorem Sparse.canonical_erase (unlisted : Nat → α) {size : Nat} (k : Nat) {l : List (Nat × α)} (h : Sparse.Canonical unlisted size l) :
    Sparse.Canonical unlisted size (Sparse.erase k l) :=
  ⟨h.1.filter _, fun c hc => h.2 c (List.mem_of_mem_filter hc)⟩

theorem Sparse.mem_iff_read (unlisted : Nat → α) {size : Nat} {l : List (Nat × α)} (h : Sparse.Canonical unlisted size l) (k : Nat) (a : α) :
    (k, a) ∈ l ↔ Sparse.read unlisted k l = a ∧ a ≠ unlisted k := by
  rw [← Sparse.find?_eq_some_iff h.1]
  simp only [Sparse.read]
  constructor
  · intro hf
    exact ⟨by simp [hf], (h.2 _ ((Sparse.find?_eq_some_iff h.1 k a).1 hf)).2⟩
  · rintro ⟨hr, hne⟩
    cases hf : Sparse.find? k l with
    | none => simp [hf] at hr; exact absurd hr.symm hne
    | some b => simp_all

variable (unlisted : Nat → α)

/-- A read after a write, at every index and of every list. -/
theorem Sparse.read_write [DecidableEq α] (k j : Nat) (a : α) (l : List (Nat × α)) :
    Sparse.read unlisted j (Sparse.write unlisted k a l) = if k = j then a else Sparse.read unlisted j l := by
  simp only [Sparse.read, Sparse.write]
  split <;> rename_i ha
  · rw [Sparse.find?_erase]
    split <;> simp_all
  · rw [Sparse.find?_insert _ _ _ _ (Sparse.not_mem_erase k l), Sparse.find?_erase]
    split <;> simp_all

/-! ## The canonical form is kept -/

theorem Sparse.mem_insert (k : Nat) (a : α) (l : List (Nat × α)) (c : Nat × α) :
    c ∈ Sparse.insert k a l ↔ c = (k, a) ∨ c ∈ l := by
  induction l with
  | nil => simp [Sparse.insert]
  | cons d rest ih =>
    simp only [Sparse.insert]
    split
    · simp
    · simp only [List.mem_cons, ih]; tauto

theorem Sparse.pairwise_insert (k : Nat) (a : α) (l : List (Nat × α)) (h : l.Pairwise (fun a b => a.1 < b.1))
    (hk : ∀ c ∈ l, c.1 ≠ k) : (Sparse.insert k a l).Pairwise (fun a b => a.1 < b.1) := by
  induction l with
  | nil => simp [Sparse.insert]
  | cons d rest ih =>
    obtain ⟨hd, hrest⟩ := List.pairwise_cons.1 h
    simp only [Sparse.insert]
    split <;> rename_i hlt
    · refine List.pairwise_cons.2 ⟨fun c hc => ?_, h⟩
      rcases List.mem_cons.1 hc with rfl | hc
      · exact hlt
      · exact Nat.lt_trans hlt (hd c hc)
    · refine List.pairwise_cons.2 ⟨fun c hc => ?_, ih hrest (fun c hc => hk c (by simp [hc]))⟩
      rcases (Sparse.mem_insert k a rest c).1 hc with rfl | hc
      · have := hk d (by simp)
        change d.1 < k
        omega
      · exact hd c hc

/-- Every write inside the array keeps the canonical form. -/
theorem Sparse.canonical_write [DecidableEq α] {size : Nat} (k : Nat) (a : α) {l : List (Nat × α)} (hk : k < size)
    (h : Sparse.Canonical unlisted size l) : Sparse.Canonical unlisted size (Sparse.write unlisted k a l) := by
  have he := Sparse.canonical_erase unlisted k h
  simp only [Sparse.write]
  split <;> rename_i ha
  · exact he
  · refine ⟨Sparse.pairwise_insert k a _ he.1 (Sparse.not_mem_erase k l), fun c hc => ?_⟩
    rcases (Sparse.mem_insert k a _ c).1 hc with rfl | hc
    · exact ⟨hk, ha⟩
    · exact he.2 c hc

/-! ## Canonical lists that read alike are equal -/

/-- Equal arrays are equal data. -/
theorem Sparse.canonical_ext {size : Nat} {l l' : List (Nat × α)} (h : Sparse.Canonical unlisted size l)
    (h' : Sparse.Canonical unlisted size l') (hr : ∀ k, Sparse.read unlisted k l = Sparse.read unlisted k l') :
    l = l' := by
  have nodup : ∀ {m : List (Nat × α)}, m.Pairwise (fun a b => a.1 < b.1) → m.Nodup := fun hm =>
    hm.imp (fun hlt heq => by simp [heq] at hlt)
  have hp : l.Perm l' := (List.perm_ext_iff_of_nodup (nodup h.1) (nodup h'.1)).2 fun ⟨k, a⟩ => by
    rw [Sparse.mem_iff_read unlisted h, Sparse.mem_iff_read unlisted h', hr k]
  exact hp.eq_of_pairwise (fun a b _ _ hab hba => absurd hab (by omega)) h.1 h'.1

end Sys2Proof.Machine
end

