-- ==== Sys2Proof/Laws/State.lean ====
section
/-! SUPPORT. One lemma per field per update of `State`, each true by `rfl`: no later proof unfolds a record update. -/

namespace Sys2Proof.Machine

variable (s : State)

/-! ### `State.setReg` -/

@[simp] theorem State.setReg_v (x : Reg) (b : Byte) : (s.setReg x b).v = s.v.set x b := rfl
@[simp] theorem State.setReg_i (x : Reg) (b : Byte) : (s.setReg x b).i = s.i := rfl
@[simp] theorem State.setReg_pc (x : Reg) (b : Byte) : (s.setReg x b).pc = s.pc := rfl
@[simp] theorem State.setReg_sp (x : Reg) (b : Byte) : (s.setReg x b).sp = s.sp := rfl
@[simp] theorem State.setReg_stack (x : Reg) (b : Byte) : (s.setReg x b).stack = s.stack := rfl
@[simp] theorem State.setReg_dt (x : Reg) (b : Byte) : (s.setReg x b).dt = s.dt := rfl
@[simp] theorem State.setReg_st (x : Reg) (b : Byte) : (s.setReg x b).st = s.st := rfl
@[simp] theorem State.setReg_key (x : Reg) (b : Byte) : (s.setReg x b).key = s.key := rfl
@[simp] theorem State.setReg_fb (x : Reg) (b : Byte) : (s.setReg x b).fb = s.fb := rfl
@[simp] theorem State.setReg_mem (x : Reg) (b : Byte) : (s.setReg x b).mem = s.mem := rfl
@[simp] theorem State.setReg_opcode (x : Reg) (b : Byte) : (s.setReg x b).opcode = s.opcode := rfl
@[simp] theorem State.setReg_halted (x : Reg) (b : Byte) : (s.setReg x b).halted = s.halted := rfl
@[simp] theorem State.setReg_faultCause (x : Reg) (b : Byte) : (s.setReg x b).faultCause = s.faultCause := rfl
@[simp] theorem State.setReg_faultPc (x : Reg) (b : Byte) : (s.setReg x b).faultPc = s.faultPc := rfl
@[simp] theorem State.setReg_rndIn (x : Reg) (b : Byte) : (s.setReg x b).rndIn = s.rndIn := rfl
@[simp] theorem State.setReg_draws (x : Reg) (b : Byte) : (s.setReg x b).draws = s.draws := rfl

/-! ### `State.setI` -/

@[simp] theorem State.setI_v (w : Word) : (s.setI w).v = s.v := rfl
@[simp] theorem State.setI_i (w : Word) : (s.setI w).i = w := rfl
@[simp] theorem State.setI_pc (w : Word) : (s.setI w).pc = s.pc := rfl
@[simp] theorem State.setI_sp (w : Word) : (s.setI w).sp = s.sp := rfl
@[simp] theorem State.setI_stack (w : Word) : (s.setI w).stack = s.stack := rfl
@[simp] theorem State.setI_dt (w : Word) : (s.setI w).dt = s.dt := rfl
@[simp] theorem State.setI_st (w : Word) : (s.setI w).st = s.st := rfl
@[simp] theorem State.setI_key (w : Word) : (s.setI w).key = s.key := rfl
@[simp] theorem State.setI_fb (w : Word) : (s.setI w).fb = s.fb := rfl
@[simp] theorem State.setI_mem (w : Word) : (s.setI w).mem = s.mem := rfl
@[simp] theorem State.setI_opcode (w : Word) : (s.setI w).opcode = s.opcode := rfl
@[simp] theorem State.setI_halted (w : Word) : (s.setI w).halted = s.halted := rfl
@[simp] theorem State.setI_faultCause (w : Word) : (s.setI w).faultCause = s.faultCause := rfl
@[simp] theorem State.setI_faultPc (w : Word) : (s.setI w).faultPc = s.faultPc := rfl
@[simp] theorem State.setI_rndIn (w : Word) : (s.setI w).rndIn = s.rndIn := rfl
@[simp] theorem State.setI_draws (w : Word) : (s.setI w).draws = s.draws := rfl

/-! ### `State.setPc` -/

@[simp] theorem State.setPc_v (w : Word) : (s.setPc w).v = s.v := rfl
@[simp] theorem State.setPc_i (w : Word) : (s.setPc w).i = s.i := rfl
@[simp] theorem State.setPc_pc (w : Word) : (s.setPc w).pc = w := rfl
@[simp] theorem State.setPc_sp (w : Word) : (s.setPc w).sp = s.sp := rfl
@[simp] theorem State.setPc_stack (w : Word) : (s.setPc w).stack = s.stack := rfl
@[simp] theorem State.setPc_dt (w : Word) : (s.setPc w).dt = s.dt := rfl
@[simp] theorem State.setPc_st (w : Word) : (s.setPc w).st = s.st := rfl
@[simp] theorem State.setPc_key (w : Word) : (s.setPc w).key = s.key := rfl
@[simp] theorem State.setPc_fb (w : Word) : (s.setPc w).fb = s.fb := rfl
@[simp] theorem State.setPc_mem (w : Word) : (s.setPc w).mem = s.mem := rfl
@[simp] theorem State.setPc_opcode (w : Word) : (s.setPc w).opcode = s.opcode := rfl
@[simp] theorem State.setPc_halted (w : Word) : (s.setPc w).halted = s.halted := rfl
@[simp] theorem State.setPc_faultCause (w : Word) : (s.setPc w).faultCause = s.faultCause := rfl
@[simp] theorem State.setPc_faultPc (w : Word) : (s.setPc w).faultPc = s.faultPc := rfl
@[simp] theorem State.setPc_rndIn (w : Word) : (s.setPc w).rndIn = s.rndIn := rfl
@[simp] theorem State.setPc_draws (w : Word) : (s.setPc w).draws = s.draws := rfl

/-! ### `State.skip` -/

@[simp] theorem State.skip_v : (s.skip).v = s.v := rfl
@[simp] theorem State.skip_i : (s.skip).i = s.i := rfl
@[simp] theorem State.skip_pc : (s.skip).pc = s.pc + 2 := rfl
@[simp] theorem State.skip_sp : (s.skip).sp = s.sp := rfl
@[simp] theorem State.skip_stack : (s.skip).stack = s.stack := rfl
@[simp] theorem State.skip_dt : (s.skip).dt = s.dt := rfl
@[simp] theorem State.skip_st : (s.skip).st = s.st := rfl
@[simp] theorem State.skip_key : (s.skip).key = s.key := rfl
@[simp] theorem State.skip_fb : (s.skip).fb = s.fb := rfl
@[simp] theorem State.skip_mem : (s.skip).mem = s.mem := rfl
@[simp] theorem State.skip_opcode : (s.skip).opcode = s.opcode := rfl
@[simp] theorem State.skip_halted : (s.skip).halted = s.halted := rfl
@[simp] theorem State.skip_faultCause : (s.skip).faultCause = s.faultCause := rfl
@[simp] theorem State.skip_faultPc : (s.skip).faultPc = s.faultPc := rfl
@[simp] theorem State.skip_rndIn : (s.skip).rndIn = s.rndIn := rfl
@[simp] theorem State.skip_draws : (s.skip).draws = s.draws := rfl

/-! ### `State.setDelay` -/

@[simp] theorem State.setDelay_v (b : Byte) : (s.setDelay b).v = s.v := rfl
@[simp] theorem State.setDelay_i (b : Byte) : (s.setDelay b).i = s.i := rfl
@[simp] theorem State.setDelay_pc (b : Byte) : (s.setDelay b).pc = s.pc := rfl
@[simp] theorem State.setDelay_sp (b : Byte) : (s.setDelay b).sp = s.sp := rfl
@[simp] theorem State.setDelay_stack (b : Byte) : (s.setDelay b).stack = s.stack := rfl
@[simp] theorem State.setDelay_dt (b : Byte) : (s.setDelay b).dt = b := rfl
@[simp] theorem State.setDelay_st (b : Byte) : (s.setDelay b).st = s.st := rfl
@[simp] theorem State.setDelay_key (b : Byte) : (s.setDelay b).key = s.key := rfl
@[simp] theorem State.setDelay_fb (b : Byte) : (s.setDelay b).fb = s.fb := rfl
@[simp] theorem State.setDelay_mem (b : Byte) : (s.setDelay b).mem = s.mem := rfl
@[simp] theorem State.setDelay_opcode (b : Byte) : (s.setDelay b).opcode = s.opcode := rfl
@[simp] theorem State.setDelay_halted (b : Byte) : (s.setDelay b).halted = s.halted := rfl
@[simp] theorem State.setDelay_faultCause (b : Byte) : (s.setDelay b).faultCause = s.faultCause := rfl
@[simp] theorem State.setDelay_faultPc (b : Byte) : (s.setDelay b).faultPc = s.faultPc := rfl
@[simp] theorem State.setDelay_rndIn (b : Byte) : (s.setDelay b).rndIn = s.rndIn := rfl
@[simp] theorem State.setDelay_draws (b : Byte) : (s.setDelay b).draws = s.draws := rfl

/-! ### `State.setSound` -/

@[simp] theorem State.setSound_v (b : Byte) : (s.setSound b).v = s.v := rfl
@[simp] theorem State.setSound_i (b : Byte) : (s.setSound b).i = s.i := rfl
@[simp] theorem State.setSound_pc (b : Byte) : (s.setSound b).pc = s.pc := rfl
@[simp] theorem State.setSound_sp (b : Byte) : (s.setSound b).sp = s.sp := rfl
@[simp] theorem State.setSound_stack (b : Byte) : (s.setSound b).stack = s.stack := rfl
@[simp] theorem State.setSound_dt (b : Byte) : (s.setSound b).dt = s.dt := rfl
@[simp] theorem State.setSound_st (b : Byte) : (s.setSound b).st = b := rfl
@[simp] theorem State.setSound_key (b : Byte) : (s.setSound b).key = s.key := rfl
@[simp] theorem State.setSound_fb (b : Byte) : (s.setSound b).fb = s.fb := rfl
@[simp] theorem State.setSound_mem (b : Byte) : (s.setSound b).mem = s.mem := rfl
@[simp] theorem State.setSound_opcode (b : Byte) : (s.setSound b).opcode = s.opcode := rfl
@[simp] theorem State.setSound_halted (b : Byte) : (s.setSound b).halted = s.halted := rfl
@[simp] theorem State.setSound_faultCause (b : Byte) : (s.setSound b).faultCause = s.faultCause := rfl
@[simp] theorem State.setSound_faultPc (b : Byte) : (s.setSound b).faultPc = s.faultPc := rfl
@[simp] theorem State.setSound_rndIn (b : Byte) : (s.setSound b).rndIn = s.rndIn := rfl
@[simp] theorem State.setSound_draws (b : Byte) : (s.setSound b).draws = s.draws := rfl

/-! ### `State.setKey` -/

@[simp] theorem State.setKey_v (k : Reg) (b : Byte) : (s.setKey k b).v = s.v := rfl
@[simp] theorem State.setKey_i (k : Reg) (b : Byte) : (s.setKey k b).i = s.i := rfl
@[simp] theorem State.setKey_pc (k : Reg) (b : Byte) : (s.setKey k b).pc = s.pc := rfl
@[simp] theorem State.setKey_sp (k : Reg) (b : Byte) : (s.setKey k b).sp = s.sp := rfl
@[simp] theorem State.setKey_stack (k : Reg) (b : Byte) : (s.setKey k b).stack = s.stack := rfl
@[simp] theorem State.setKey_dt (k : Reg) (b : Byte) : (s.setKey k b).dt = s.dt := rfl
@[simp] theorem State.setKey_st (k : Reg) (b : Byte) : (s.setKey k b).st = s.st := rfl
@[simp] theorem State.setKey_key (k : Reg) (b : Byte) : (s.setKey k b).key = s.key.set k b := rfl
@[simp] theorem State.setKey_fb (k : Reg) (b : Byte) : (s.setKey k b).fb = s.fb := rfl
@[simp] theorem State.setKey_mem (k : Reg) (b : Byte) : (s.setKey k b).mem = s.mem := rfl
@[simp] theorem State.setKey_opcode (k : Reg) (b : Byte) : (s.setKey k b).opcode = s.opcode := rfl
@[simp] theorem State.setKey_halted (k : Reg) (b : Byte) : (s.setKey k b).halted = s.halted := rfl
@[simp] theorem State.setKey_faultCause (k : Reg) (b : Byte) : (s.setKey k b).faultCause = s.faultCause := rfl
@[simp] theorem State.setKey_faultPc (k : Reg) (b : Byte) : (s.setKey k b).faultPc = s.faultPc := rfl
@[simp] theorem State.setKey_rndIn (k : Reg) (b : Byte) : (s.setKey k b).rndIn = s.rndIn := rfl
@[simp] theorem State.setKey_draws (k : Reg) (b : Byte) : (s.setKey k b).draws = s.draws := rfl

/-! ### `State.writeBytes` -/

@[simp] theorem State.writeBytes_v (a : Nat) (bs : List Byte) : (s.writeBytes a bs).v = s.v := rfl
@[simp] theorem State.writeBytes_i (a : Nat) (bs : List Byte) : (s.writeBytes a bs).i = s.i := rfl
@[simp] theorem State.writeBytes_pc (a : Nat) (bs : List Byte) : (s.writeBytes a bs).pc = s.pc := rfl
@[simp] theorem State.writeBytes_sp (a : Nat) (bs : List Byte) : (s.writeBytes a bs).sp = s.sp := rfl
@[simp] theorem State.writeBytes_stack (a : Nat) (bs : List Byte) : (s.writeBytes a bs).stack = s.stack := rfl
@[simp] theorem State.writeBytes_dt (a : Nat) (bs : List Byte) : (s.writeBytes a bs).dt = s.dt := rfl
@[simp] theorem State.writeBytes_st (a : Nat) (bs : List Byte) : (s.writeBytes a bs).st = s.st := rfl
@[simp] theorem State.writeBytes_key (a : Nat) (bs : List Byte) : (s.writeBytes a bs).key = s.key := rfl
@[simp] theorem State.writeBytes_fb (a : Nat) (bs : List Byte) : (s.writeBytes a bs).fb = s.fb := rfl
@[simp] theorem State.writeBytes_mem (a : Nat) (bs : List Byte) : (s.writeBytes a bs).mem = s.mem.writeBytes a bs := rfl
@[simp] theorem State.writeBytes_opcode (a : Nat) (bs : List Byte) : (s.writeBytes a bs).opcode = s.opcode := rfl
@[simp] theorem State.writeBytes_halted (a : Nat) (bs : List Byte) : (s.writeBytes a bs).halted = s.halted := rfl
@[simp] theorem State.writeBytes_faultCause (a : Nat) (bs : List Byte) : (s.writeBytes a bs).faultCause = s.faultCause := rfl
@[simp] theorem State.writeBytes_faultPc (a : Nat) (bs : List Byte) : (s.writeBytes a bs).faultPc = s.faultPc := rfl
@[simp] theorem State.writeBytes_rndIn (a : Nat) (bs : List Byte) : (s.writeBytes a bs).rndIn = s.rndIn := rfl
@[simp] theorem State.writeBytes_draws (a : Nat) (bs : List Byte) : (s.writeBytes a bs).draws = s.draws := rfl

/-! ### `State.clearFb` -/

@[simp] theorem State.clearFb_v : (s.clearFb).v = s.v := rfl
@[simp] theorem State.clearFb_i : (s.clearFb).i = s.i := rfl
@[simp] theorem State.clearFb_pc : (s.clearFb).pc = s.pc := rfl
@[simp] theorem State.clearFb_sp : (s.clearFb).sp = s.sp := rfl
@[simp] theorem State.clearFb_stack : (s.clearFb).stack = s.stack := rfl
@[simp] theorem State.clearFb_dt : (s.clearFb).dt = s.dt := rfl
@[simp] theorem State.clearFb_st : (s.clearFb).st = s.st := rfl
@[simp] theorem State.clearFb_key : (s.clearFb).key = s.key := rfl
@[simp] theorem State.clearFb_fb : (s.clearFb).fb = [] := rfl
@[simp] theorem State.clearFb_mem : (s.clearFb).mem = s.mem := rfl
@[simp] theorem State.clearFb_opcode : (s.clearFb).opcode = s.opcode := rfl
@[simp] theorem State.clearFb_halted : (s.clearFb).halted = s.halted := rfl
@[simp] theorem State.clearFb_faultCause : (s.clearFb).faultCause = s.faultCause := rfl
@[simp] theorem State.clearFb_faultPc : (s.clearFb).faultPc = s.faultPc := rfl
@[simp] theorem State.clearFb_rndIn : (s.clearFb).rndIn = s.rndIn := rfl
@[simp] theorem State.clearFb_draws : (s.clearFb).draws = s.draws := rfl

/-! ### `State.flipPixels` -/

@[simp] theorem State.flipPixels_v (ps : List Nat) : (s.flipPixels ps).v = s.v := rfl
@[simp] theorem State.flipPixels_i (ps : List Nat) : (s.flipPixels ps).i = s.i := rfl
@[simp] theorem State.flipPixels_pc (ps : List Nat) : (s.flipPixels ps).pc = s.pc := rfl
@[simp] theorem State.flipPixels_sp (ps : List Nat) : (s.flipPixels ps).sp = s.sp := rfl
@[simp] theorem State.flipPixels_stack (ps : List Nat) : (s.flipPixels ps).stack = s.stack := rfl
@[simp] theorem State.flipPixels_dt (ps : List Nat) : (s.flipPixels ps).dt = s.dt := rfl
@[simp] theorem State.flipPixels_st (ps : List Nat) : (s.flipPixels ps).st = s.st := rfl
@[simp] theorem State.flipPixels_key (ps : List Nat) : (s.flipPixels ps).key = s.key := rfl
@[simp] theorem State.flipPixels_fb (ps : List Nat) : (s.flipPixels ps).fb = s.fb.flipAll ps := rfl
@[simp] theorem State.flipPixels_mem (ps : List Nat) : (s.flipPixels ps).mem = s.mem := rfl
@[simp] theorem State.flipPixels_opcode (ps : List Nat) : (s.flipPixels ps).opcode = s.opcode := rfl
@[simp] theorem State.flipPixels_halted (ps : List Nat) : (s.flipPixels ps).halted = s.halted := rfl
@[simp] theorem State.flipPixels_faultCause (ps : List Nat) : (s.flipPixels ps).faultCause = s.faultCause := rfl
@[simp] theorem State.flipPixels_faultPc (ps : List Nat) : (s.flipPixels ps).faultPc = s.faultPc := rfl
@[simp] theorem State.flipPixels_rndIn (ps : List Nat) : (s.flipPixels ps).rndIn = s.rndIn := rfl
@[simp] theorem State.flipPixels_draws (ps : List Nat) : (s.flipPixels ps).draws = s.draws := rfl

/-! ### `State.enterFault` -/

@[simp] theorem State.enterFault_v (c : FaultCause) (p : Word) : (s.enterFault c p).v = s.v := rfl
@[simp] theorem State.enterFault_i (c : FaultCause) (p : Word) : (s.enterFault c p).i = s.i := rfl
@[simp] theorem State.enterFault_pc (c : FaultCause) (p : Word) : (s.enterFault c p).pc = p := rfl
@[simp] theorem State.enterFault_sp (c : FaultCause) (p : Word) : (s.enterFault c p).sp = s.sp := rfl
@[simp] theorem State.enterFault_stack (c : FaultCause) (p : Word) : (s.enterFault c p).stack = s.stack := rfl
@[simp] theorem State.enterFault_dt (c : FaultCause) (p : Word) : (s.enterFault c p).dt = s.dt := rfl
@[simp] theorem State.enterFault_st (c : FaultCause) (p : Word) : (s.enterFault c p).st = s.st := rfl
@[simp] theorem State.enterFault_key (c : FaultCause) (p : Word) : (s.enterFault c p).key = s.key := rfl
@[simp] theorem State.enterFault_fb (c : FaultCause) (p : Word) : (s.enterFault c p).fb = s.fb := rfl
@[simp] theorem State.enterFault_mem (c : FaultCause) (p : Word) : (s.enterFault c p).mem = s.mem := rfl
@[simp] theorem State.enterFault_opcode (c : FaultCause) (p : Word) : (s.enterFault c p).opcode = s.opcode := rfl
@[simp] theorem State.enterFault_halted (c : FaultCause) (p : Word) : (s.enterFault c p).halted = true := rfl
@[simp] theorem State.enterFault_faultCause (c : FaultCause) (p : Word) : (s.enterFault c p).faultCause = c := rfl
@[simp] theorem State.enterFault_faultPc (c : FaultCause) (p : Word) : (s.enterFault c p).faultPc = p := rfl
@[simp] theorem State.enterFault_rndIn (c : FaultCause) (p : Word) : (s.enterFault c p).rndIn = s.rndIn := rfl
@[simp] theorem State.enterFault_draws (c : FaultCause) (p : Word) : (s.enterFault c p).draws = s.draws := rfl

/-! ### `State.takeRnd` -/

@[simp] theorem State.takeRnd_v : (s.takeRnd).v = s.v := rfl
@[simp] theorem State.takeRnd_i : (s.takeRnd).i = s.i := rfl
@[simp] theorem State.takeRnd_pc : (s.takeRnd).pc = s.pc := rfl
@[simp] theorem State.takeRnd_sp : (s.takeRnd).sp = s.sp := rfl
@[simp] theorem State.takeRnd_stack : (s.takeRnd).stack = s.stack := rfl
@[simp] theorem State.takeRnd_dt : (s.takeRnd).dt = s.dt := rfl
@[simp] theorem State.takeRnd_st : (s.takeRnd).st = s.st := rfl
@[simp] theorem State.takeRnd_key : (s.takeRnd).key = s.key := rfl
@[simp] theorem State.takeRnd_fb : (s.takeRnd).fb = s.fb := rfl
@[simp] theorem State.takeRnd_mem : (s.takeRnd).mem = s.mem := rfl
@[simp] theorem State.takeRnd_opcode : (s.takeRnd).opcode = s.opcode := rfl
@[simp] theorem State.takeRnd_halted : (s.takeRnd).halted = s.halted := rfl
@[simp] theorem State.takeRnd_faultCause : (s.takeRnd).faultCause = s.faultCause := rfl
@[simp] theorem State.takeRnd_faultPc : (s.takeRnd).faultPc = s.faultPc := rfl
@[simp] theorem State.takeRnd_rndIn : (s.takeRnd).rndIn = none := rfl
@[simp] theorem State.takeRnd_draws : (s.takeRnd).draws = s.draws + 1 := rfl

/-! ### `State.fetched` -/

@[simp] theorem State.fetched_v : (s.fetched).v = s.v := rfl
@[simp] theorem State.fetched_i : (s.fetched).i = s.i := rfl
@[simp] theorem State.fetched_pc : (s.fetched).pc = s.pc + 2 := rfl
@[simp] theorem State.fetched_sp : (s.fetched).sp = s.sp := rfl
@[simp] theorem State.fetched_stack : (s.fetched).stack = s.stack := rfl
@[simp] theorem State.fetched_dt : (s.fetched).dt = s.dt := rfl
@[simp] theorem State.fetched_st : (s.fetched).st = s.st := rfl
@[simp] theorem State.fetched_key : (s.fetched).key = s.key := rfl
@[simp] theorem State.fetched_fb : (s.fetched).fb = s.fb := rfl
@[simp] theorem State.fetched_mem : (s.fetched).mem = s.mem := rfl
@[simp] theorem State.fetched_opcode : (s.fetched).opcode = s.fetchWord := rfl
@[simp] theorem State.fetched_halted : (s.fetched).halted = s.halted := rfl
@[simp] theorem State.fetched_faultCause : (s.fetched).faultCause = s.faultCause := rfl
@[simp] theorem State.fetched_faultPc : (s.fetched).faultPc = s.faultPc := rfl
@[simp] theorem State.fetched_rndIn : (s.fetched).rndIn = s.rndIn := rfl
@[simp] theorem State.fetched_draws : (s.fetched).draws = s.draws := rfl

/-! ### `State.setFlag` -/

@[simp] theorem State.setFlag_v (f : Bool) : (s.setFlag f).v = s.v.set vf (flagByte f) := rfl
@[simp] theorem State.setFlag_i (f : Bool) : (s.setFlag f).i = s.i := rfl
@[simp] theorem State.setFlag_pc (f : Bool) : (s.setFlag f).pc = s.pc := rfl
@[simp] theorem State.setFlag_sp (f : Bool) : (s.setFlag f).sp = s.sp := rfl
@[simp] theorem State.setFlag_stack (f : Bool) : (s.setFlag f).stack = s.stack := rfl
@[simp] theorem State.setFlag_dt (f : Bool) : (s.setFlag f).dt = s.dt := rfl
@[simp] theorem State.setFlag_st (f : Bool) : (s.setFlag f).st = s.st := rfl
@[simp] theorem State.setFlag_key (f : Bool) : (s.setFlag f).key = s.key := rfl
@[simp] theorem State.setFlag_fb (f : Bool) : (s.setFlag f).fb = s.fb := rfl
@[simp] theorem State.setFlag_mem (f : Bool) : (s.setFlag f).mem = s.mem := rfl
@[simp] theorem State.setFlag_opcode (f : Bool) : (s.setFlag f).opcode = s.opcode := rfl
@[simp] theorem State.setFlag_halted (f : Bool) : (s.setFlag f).halted = s.halted := rfl
@[simp] theorem State.setFlag_faultCause (f : Bool) : (s.setFlag f).faultCause = s.faultCause := rfl
@[simp] theorem State.setFlag_faultPc (f : Bool) : (s.setFlag f).faultPc = s.faultPc := rfl
@[simp] theorem State.setFlag_rndIn (f : Bool) : (s.setFlag f).rndIn = s.rndIn := rfl
@[simp] theorem State.setFlag_draws (f : Bool) : (s.setFlag f).draws = s.draws := rfl

/-! ### `State.setResultThenFlag` -/

@[simp] theorem State.setResultThenFlag_v (x : Reg) (r : Byte) (f : Bool) : (s.setResultThenFlag x r f).v = (s.v.set x r).set vf (flagByte f) := rfl
@[simp] theorem State.setResultThenFlag_i (x : Reg) (r : Byte) (f : Bool) : (s.setResultThenFlag x r f).i = s.i := rfl
@[simp] theorem State.setResultThenFlag_pc (x : Reg) (r : Byte) (f : Bool) : (s.setResultThenFlag x r f).pc = s.pc := rfl
@[simp] theorem State.setResultThenFlag_sp (x : Reg) (r : Byte) (f : Bool) : (s.setResultThenFlag x r f).sp = s.sp := rfl
@[simp] theorem State.setResultThenFlag_stack (x : Reg) (r : Byte) (f : Bool) : (s.setResultThenFlag x r f).stack = s.stack := rfl
@[simp] theorem State.setResultThenFlag_dt (x : Reg) (r : Byte) (f : Bool) : (s.setResultThenFlag x r f).dt = s.dt := rfl
@[simp] theorem State.setResultThenFlag_st (x : Reg) (r : Byte) (f : Bool) : (s.setResultThenFlag x r f).st = s.st := rfl
@[simp] theorem State.setResultThenFlag_key (x : Reg) (r : Byte) (f : Bool) : (s.setResultThenFlag x r f).key = s.key := rfl
@[simp] theorem State.setResultThenFlag_fb (x : Reg) (r : Byte) (f : Bool) : (s.setResultThenFlag x r f).fb = s.fb := rfl
@[simp] theorem State.setResultThenFlag_mem (x : Reg) (r : Byte) (f : Bool) : (s.setResultThenFlag x r f).mem = s.mem := rfl
@[simp] theorem State.setResultThenFlag_opcode (x : Reg) (r : Byte) (f : Bool) : (s.setResultThenFlag x r f).opcode = s.opcode := rfl
@[simp] theorem State.setResultThenFlag_halted (x : Reg) (r : Byte) (f : Bool) : (s.setResultThenFlag x r f).halted = s.halted := rfl
@[simp] theorem State.setResultThenFlag_faultCause (x : Reg) (r : Byte) (f : Bool) : (s.setResultThenFlag x r f).faultCause = s.faultCause := rfl
@[simp] theorem State.setResultThenFlag_faultPc (x : Reg) (r : Byte) (f : Bool) : (s.setResultThenFlag x r f).faultPc = s.faultPc := rfl
@[simp] theorem State.setResultThenFlag_rndIn (x : Reg) (r : Byte) (f : Bool) : (s.setResultThenFlag x r f).rndIn = s.rndIn := rfl
@[simp] theorem State.setResultThenFlag_draws (x : Reg) (r : Byte) (f : Bool) : (s.setResultThenFlag x r f).draws = s.draws := rfl

/-! ### `tick` -/

@[simp] theorem tick_v : (tick s).v = s.v := rfl
@[simp] theorem tick_i : (tick s).i = s.i := rfl
@[simp] theorem tick_pc : (tick s).pc = s.pc := rfl
@[simp] theorem tick_sp : (tick s).sp = s.sp := rfl
@[simp] theorem tick_stack : (tick s).stack = s.stack := rfl
@[simp] theorem tick_dt : (tick s).dt = countDown s.dt := rfl
@[simp] theorem tick_st : (tick s).st = countDown s.st := rfl
@[simp] theorem tick_key : (tick s).key = s.key := rfl
@[simp] theorem tick_fb : (tick s).fb = s.fb := rfl
@[simp] theorem tick_mem : (tick s).mem = s.mem := rfl
@[simp] theorem tick_opcode : (tick s).opcode = s.opcode := rfl
@[simp] theorem tick_halted : (tick s).halted = s.halted := rfl
@[simp] theorem tick_faultCause : (tick s).faultCause = s.faultCause := rfl
@[simp] theorem tick_faultPc : (tick s).faultPc = s.faultPc := rfl
@[simp] theorem tick_rndIn : (tick s).rndIn = s.rndIn := rfl
@[simp] theorem tick_draws : (tick s).draws = s.draws := rfl

end Sys2Proof.Machine
end

