-- ==== Sys2Proof/Laws/Memory.lean ====
section
/-! SUPPORT. The laws of memory and of the framebuffer: read after write, the canonical form kept by every operation. -/

namespace Sys2Proof.Machine

/-! ## Memory -/

theorem Memory.read_write (m : Memory) (a j : Nat) (b : Byte) :
    (m.write a b).read j = if a = j then b else m.read j := Sparse.read_write memUnlisted a j b m

/-- A read after writing bytes at consecutive addresses. -/
theorem Memory.read_writeBytes (bs : List Byte) (m : Memory) (a j : Nat) :
    (m.writeBytes a bs).read j = if a ≤ j ∧ j < a + bs.length then bs.getD (j - a) 0 else m.read j := by
  induction bs generalizing m a with
  | nil => simp [Memory.writeBytes]
  | cons b rest ih =>
    simp only [Memory.writeBytes, ih, Memory.read_write, List.length_cons]
    by_cases h : a = j
    · subst h; simp
    · by_cases h1 : a + 1 ≤ j ∧ j < a + 1 + rest.length
      · obtain ⟨k, hk⟩ : ∃ k, j - a = k + 1 := ⟨j - a - 1, by omega⟩
        have : j - (a + 1) = k := by omega
        rw [if_pos h1, if_pos (by omega), this, hk]
        simp
      · rw [if_neg h1, if_neg h, if_neg (by omega)]

theorem Memory.wf_empty : Memory.wf [] := ⟨List.Pairwise.nil, by simp⟩

theorem Memory.wf_write {m : Memory} {a : Nat} (b : Byte) (ha : a < Config.memSize) (h : Memory.wf m) :
    Memory.wf (m.write a b) := Sparse.canonical_write memUnlisted a b ha h

/-- Writing bytes inside memory keeps the canonical form. -/
theorem Memory.wf_writeBytes (bs : List Byte) {m : Memory} {a : Nat} (ha : a + bs.length ≤ Config.memSize)
    (h : Memory.wf m) : Memory.wf (m.writeBytes a bs) := by
  induction bs generalizing m a with
  | nil => exact h
  | cons b rest ih =>
    simp only [List.length_cons] at ha
    exact ih (by omega) (Memory.wf_write b (by omega) h)

/-- Memories in canonical form that read alike are equal data. -/
theorem Memory.ext_read {m m' : Memory} (h : Memory.wf m) (h' : Memory.wf m') (hr : ∀ a, m.read a = m'.read a) :
    m = m' := Sparse.canonical_ext memUnlisted h h' hr

theorem State.readByte_writeBytes (s : State) (a : Nat) (bs : List Byte) (j : Nat) :
    (s.writeBytes a bs).readByte j = if a ≤ j ∧ j < a + bs.length then bs.getD (j - a) 0 else s.readByte j :=
  Memory.read_writeBytes bs s.mem a j

/-- A byte's value depends on memory only. -/
theorem State.readByte_of_mem_eq {s t : State} (h : t.mem = s.mem) (a : Nat) : t.readByte a = s.readByte a := by
  simp [State.readByte, h]

theorem dataInRange_iff (base count : Nat) : dataInRange base count = true ↔ count = 0 ∨ base + count ≤ 0x1000 := by
  unfold dataInRange Config.memSize
  simp

/-! ## Framebuffer -/

theorem Framebuffer.read_flip (f : Framebuffer) (p q : Nat) :
    (f.flip p).read q = if p = q then f.read p ^^^ lit else f.read q := Sparse.read_write fbUnlisted p q _ f

theorem Framebuffer.read_flipAll_of_not_mem (ps : List Nat) (f : Framebuffer) {q : Nat} (h : q ∉ ps) :
    (f.flipAll ps).read q = f.read q := by
  induction ps generalizing f with
  | nil => rfl
  | cons p rest ih =>
    simp only [List.mem_cons, not_or] at h
    rw [Framebuffer.flipAll, ih _ h.2, Framebuffer.read_flip, if_neg (fun e => h.1 e.symm)]

/-- Flipping a list without repeats flips each of its pixels once and no other pixel. -/
theorem Framebuffer.read_flipAll (ps : List Nat) (f : Framebuffer) (hn : ps.Nodup) (q : Nat) :
    (f.flipAll ps).read q = if q ∈ ps then f.read q ^^^ lit else f.read q := by
  induction ps generalizing f with
  | nil => simp [Framebuffer.flipAll]
  | cons p rest ih =>
    obtain ⟨hp, hrest⟩ := List.nodup_cons.1 hn
    by_cases hq : q = p
    · subst hq
      rw [Framebuffer.flipAll, Framebuffer.read_flipAll_of_not_mem _ _ hp, Framebuffer.read_flip]
      simp
    · rw [Framebuffer.flipAll, ih _ hrest, Framebuffer.read_flip]
      simp [hq, Ne.symm hq]

theorem Framebuffer.wf_empty : Framebuffer.wf [] := ⟨List.Pairwise.nil, by simp⟩

theorem Framebuffer.wf_flip {f : Framebuffer} {p : Nat} (hp : p < Config.fbSize) (h : Framebuffer.wf f) :
    Framebuffer.wf (f.flip p) := Sparse.canonical_write fbUnlisted p _ hp h

theorem Framebuffer.wf_flipAll (ps : List Nat) {f : Framebuffer} (hp : ∀ p ∈ ps, p < Config.fbSize)
    (h : Framebuffer.wf f) : Framebuffer.wf (f.flipAll ps) := by
  induction ps generalizing f with
  | nil => exact h
  | cons p rest ih =>
    exact ih (fun q hq => hp q (by simp [hq])) (Framebuffer.wf_flip (hp p (by simp)) h)

/-- Framebuffers in canonical form that read alike are equal data. -/
theorem Framebuffer.ext_read {f f' : Framebuffer} (h : Framebuffer.wf f) (h' : Framebuffer.wf f')
    (hr : ∀ p, f.read p = f'.read p) : f = f' := Sparse.canonical_ext fbUnlisted h h' hr

theorem lit_xor_lit : lit ^^^ lit = unlit := by decide

theorem unlit_xor_lit : unlit ^^^ lit = lit := by decide

theorem lit_ne_unlit : lit ≠ unlit := by decide

end Sys2Proof.Machine
end

