-- ==== Sys2Proof/Laws/Ops.lean ====
section
/-! SUPPORT. One lemma per shared operation, saying everything it can do. -/

namespace Sys2Proof.Machine

/-! ## Registers -/

theorem State.reg_setReg (s : State) (x y : Reg) (b : Byte) :
    (s.setReg x b).reg y = if x = y then b else s.reg y := by
  simp only [State.reg, State.setReg, Fin.getElem_fin, Vector.getElem_set, Fin.ext_iff]

theorem State.keySlot_setKey (s : State) (k j : Reg) (b : Byte) :
    (s.setKey k b).keySlot j = if k = j then b else s.keySlot j := by
  simp only [State.keySlot, State.setKey, Fin.getElem_fin, Vector.getElem_set, Fin.ext_iff]

/-- Register files that read alike are equal. -/
theorem State.v_ext {s t : State} (h : ∀ x, t.reg x = s.reg x) : t.v = s.v := by
  refine Vector.ext fun j hj => ?_
  exact h ⟨j, hj⟩

/-- The result lands in Vx and the flag in VF, the flag last. -/
theorem State.reg_setResultThenFlag (s : State) (x y : Reg) (r : Byte) (f : Bool) :
    (s.setResultThenFlag x r f).reg y = if vf = y then flagByte f else if x = y then r else s.reg y := by
  simp only [State.setResultThenFlag, State.setFlag, State.reg_setReg]

/-- A block load changes registers only. -/
theorem State.loadFrom_eq (s : State) (a n : Nat) : s.loadFrom a n = { s with v := (s.loadFrom a n).v } := by
  induction n with
  | zero => rfl
  | succ k ih => rw [State.loadFrom, ih]; rfl

/-- A block load fills V0..V(n-1) from consecutive bytes and keeps the other registers. -/
theorem State.reg_loadFrom (s : State) (a n : Nat) (hn : n ≤ 16) (y : Reg) :
    (s.loadFrom a n).reg y = if y.val < n then s.readByte (a + y.val) else s.reg y := by
  induction n with
  | zero => simp [State.loadFrom]
  | succ k ih =>
    have hk : (Fin.ofNat 16 k).val = k := by simp; omega
    rw [State.loadFrom, State.reg_setReg, ih (by omega)]
    by_cases hy : y.val = k
    · have : Fin.ofNat 16 k = y := Fin.ext (by omega)
      rw [if_pos this, if_pos (by omega), hy]
    · have : Fin.ofNat 16 k ≠ y := fun e => hy (by rw [← e, hk])
      rw [if_neg this]
      by_cases hlt : y.val < k
      · rw [if_pos hlt, if_pos (by omega)]
      · rw [if_neg hlt, if_neg (by omega)]

@[simp] theorem State.regsUpTo_length (s : State) (x : Reg) : (s.regsUpTo x).length = x.val + 1 := by
  simp [State.regsUpTo]

/-- The k-th stored byte is V[k]. -/
theorem State.regsUpTo_getD (s : State) (x : Reg) (k : Reg) (h : k ≤ x) : (s.regsUpTo x).getD k.val 0 = s.reg k := by
  have hk : k.val < x.val + 1 := by have := Fin.le_def.1 h; omega
  simp [State.regsUpTo, List.getD_eq_getElem?_getD, hk]

/-! ## Keys -/

theorem State.pressed_iff (s : State) (k : Reg) : s.pressed k = true ↔ s.keySlot k ≠ 0 := by simp [State.pressed]

theorem State.lowestKey_eq_none_iff (s : State) : s.lowestKey = none ↔ ∀ k, s.keySlot k = 0 := by
  simp [State.lowestKey, List.find?_eq_none, State.pressed]

/-- `lowestKey` answers a pressed key below which none is pressed. -/
theorem State.lowestKey_eq_some_iff (s : State) (k : Reg) :
    s.lowestKey = some k ↔ s.keySlot k ≠ 0 ∧ ∀ j, j < k → s.keySlot j = 0 := by
  have hp : (List.finRange 16).Pairwise (· < ·) := List.pairwise_lt_finRange 16
  rw [State.lowestKey, List.find?_eq_some_iff_getElem]
  simp only [State.pressed, bne_iff_ne, ne_eq, List.length_finRange, List.getElem_finRange, Bool.not_eq_true',
    bne_eq_false_iff_eq]
  constructor
  · rintro ⟨h1, j, hj, rfl, h2⟩
    exact ⟨h1, fun i hi => by simpa using h2 i.val (by simpa [Fin.lt_def] using hi)⟩
  · rintro ⟨h1, h2⟩
    exact ⟨h1, k.val, k.isLt, by ext; simp, fun i hi => h2 _ (by simpa [Fin.lt_def] using hi)⟩

/-! ## Faults -/

theorem raise_eq (c : FaultCause) (s : State) :
    raise c s = .next { s with pc := s.pc - 2, halted := true, faultCause := c, faultPc := s.pc - 2 } := rfl

/-- A fault raised after the fetch leaves the state before the fetch, with `opcode` updated and the record set. -/
theorem raise_fetched (c : FaultCause) (s : State) :
    raise c s.fetched =
      .next { s with opcode := s.fetchWord, halted := true, faultCause := c, faultPc := s.pc } := by
  simp [raise_eq, State.fetched]

/-! ## The return stack -/

/-- Everything `pushPc` can do. -/
theorem pushPc_cases (target : Word) (s : State) :
    (s.sp.toNat = 16 ∧ pushPc target s = raise .stackOverflow s) ∨
    (∃ h : s.sp.toNat < 16,
      pushPc target s = .next { s with stack := s.stack.set s.sp.toNat s.pc, sp := s.sp + 1, pc := target }) ∨
    (16 < s.sp.toNat ∧ pushPc target s = .fault .stackPointerOutOfRange) := by
  unfold pushPc
  split <;> rename_i h
  · exact .inl ⟨by rw [h]; rfl, rfl⟩
  · split <;> rename_i h'
    · exact .inr (.inl ⟨h', rfl⟩)
    · have : s.sp.toNat ≠ 16 := fun e => h (BitVec.eq_of_toNat_eq e)
      exact .inr (.inr ⟨by omega, rfl⟩)

/-- Everything `popPc` can do. -/
theorem popPc_cases (s : State) :
    (s.sp.toNat = 0 ∧ popPc s = raise .stackUnderflow s) ∨
    (∃ h : s.sp.toNat - 1 < 16, 0 < s.sp.toNat ∧
      popPc s = .next { s with sp := s.sp - 1, pc := s.stack[s.sp.toNat - 1] }) ∨
    (16 < s.sp.toNat ∧ popPc s = .fault .stackPointerOutOfRange) := by
  unfold popPc
  split <;> rename_i h
  · exact .inl ⟨by rw [h]; rfl, rfl⟩
  · have : s.sp.toNat ≠ 0 := fun e => h (BitVec.eq_of_toNat_eq e)
    split <;> rename_i h'
    · exact .inr (.inl ⟨h', by omega, rfl⟩)
    · exact .inr (.inr ⟨by omega, rfl⟩)

/-! ## Skips, stores, loads, draws -/

theorem skipIf_eq (c : Bool) (s : State) : skipIf c s = .next { s with pc := if c then s.pc + 2 else s.pc } := by
  cases c <;> rfl

theorem keyNumber_eq_some_iff (b : Byte) (k : Reg) : keyNumber b = some k ↔ b.toNat = k.val := by
  unfold keyNumber
  split
  · simp [Fin.ext_iff]
  · simp; omega

theorem keyNumber_eq_none_iff (b : Byte) : keyNumber b = none ↔ 15 < b.toNat := by
  unfold keyNumber
  split
  · simp; omega
  · simp; omega

/-- Everything `storeAtI` can do. -/
theorem storeAtI_cases (bs : List Byte) (s : State) :
    ((bs.length = 0 ∨ s.i.toNat + bs.length ≤ 0x1000) ∧ storeAtI bs s = .next (s.writeBytes s.i.toNat bs)) ∨
    (0 < bs.length ∧ 0x1000 < s.i.toNat + bs.length ∧ storeAtI bs s = raise .memRange s) := by
  unfold storeAtI
  split <;> rename_i h
  · exact .inl ⟨(dataInRange_iff _ _).1 h, rfl⟩
  · rw [dataInRange_iff] at h
    simp only [not_or, not_le] at h
    exact .inr ⟨by omega, h.2, rfl⟩

@[simp] theorem bcdDigits_length (b : Byte) : (bcdDigits b).length = 3 := rfl

/-- Everything `drawPixels` can do. -/
theorem drawPixels_cases (ps : List Nat) (s : State) :
    ((∀ p ∈ ps, p < 2048) ∧
      drawPixels ps s = .next { s with fb := s.fb.flipAll ps, v := s.v.set vf (flagByte (s.collisionFlag ps)) }) ∨
    ((∃ p ∈ ps, 2048 ≤ p) ∧ drawPixels ps s = raise .fbRange s) := by
  unfold drawPixels Config.fbSize
  split <;> rename_i h
  · exact .inl ⟨by simpa using h, rfl⟩
  · exact .inr ⟨by simpa using h, rfl⟩

/-! ## Sprites -/

theorem mem_rowPixels (row col : Nat) (bits : Byte) (p : Nat) :
    p ∈ rowPixels row col bits ↔ ∃ c, c ≤ 7 ∧ bits.getLsbD (7 - c) = true ∧ p = row * 64 + (col + c) := by
  simp only [rowPixels, pixelIndex, Config.fbWidth, List.mem_map, List.mem_filter, List.mem_range]
  constructor
  · rintro ⟨c, ⟨hc, hb⟩, rfl⟩; exact ⟨c, by omega, hb, rfl⟩
  · rintro ⟨c, hc, hb, rfl⟩; exact ⟨c, ⟨by omega, hb⟩, rfl⟩

/-- The pixels of a sprite are those of R121: one for each set bit. -/
theorem mem_spritePixels (rows : List Byte) (row col p : Nat) :
    p ∈ spritePixels row col rows ↔
      ∃ r c, r < rows.length ∧ c ≤ 7 ∧ (rows.getD r 0).getLsbD (7 - c) = true ∧ p = (row + r) * 64 + (col + c) := by
  induction rows generalizing row with
  | nil => simp [spritePixels]
  | cons b rest ih =>
    simp only [spritePixels, List.mem_append, mem_rowPixels, ih, List.length_cons]
    constructor
    · rintro (⟨c, hc, hb, rfl⟩ | ⟨r, c, hr, hc, hb, rfl⟩)
      · exact ⟨0, c, by omega, hc, by simpa using hb, by simp⟩
      · exact ⟨r + 1, c, by omega, hc, by simpa using hb, by ring⟩
    · rintro ⟨r, c, hr, hc, hb, rfl⟩
      cases r with
      | zero => exact .inl ⟨c, hc, by simpa using hb, by simp⟩
      | succ r => exact .inr ⟨r, c, by omega, hc, by simpa using hb, by ring⟩

theorem rowPixels_nodup (row col : Nat) (bits : Byte) : (rowPixels row col bits).Nodup := by
  refine List.Nodup.map_on (fun a _ b _ h => ?_) (List.nodup_range.filter _)
  simp only [pixelIndex] at h
  omega

/-- No two set bits of one sprite map to the same pixel (R122). -/
theorem spritePixels_nodup (rows : List Byte) (row col : Nat) : (spritePixels row col rows).Nodup := by
  induction rows generalizing row with
  | nil => simp [spritePixels]
  | cons b rest ih =>
    refine List.nodup_append.2 ⟨rowPixels_nodup row col b, ih (row + 1), fun p hp q hq h => ?_⟩
    obtain ⟨c, hc, -, rfl⟩ := (mem_rowPixels _ _ _ _).1 hp
    obtain ⟨r, d, -, hd, -, rfl⟩ := (mem_spritePixels _ _ _ _).1 hq
    omega

@[simp] theorem State.spriteRows_length (s : State) (n : Nat) : (s.spriteRows n).length = n := by
  simp [State.spriteRows]

theorem State.spriteRows_getD (s : State) (n r : Nat) (h : r < n) :
    (s.spriteRows n).getD r 0 = s.readByte (s.i.toNat + r) := by
  simp [State.spriteRows, State.base, List.getD_eq_getElem?_getD, h]

/-! ## The cycle -/

/-- Everything a step can do, over the dispatcher. -/
theorem step_cases (s : State) :
    (s.halted = true ∧ step s = .next s) ∨
    (s.halted = false ∧ 0xFFE < s.pc.toNat ∧ step s = .next (s.enterFault .fetchRange s.pc)) ∨
    (s.halted = false ∧ s.pc.toNat ≤ 0xFFE ∧ (∃ e, decode s.fetchWord = .error e) ∧
      step s = raise .invalidOpcode s.fetched) ∨
    (∃ i, s.halted = false ∧ s.pc.toNat ≤ 0xFFE ∧ decode s.fetchWord = .ok i ∧ step s = exec i s.fetched) := by
  unfold step cycle execFetched State.fetchFaults
  by_cases h : s.halted = true
  · exact .inl ⟨h, by simp [h]⟩
  · have hf : s.halted = false := by simpa using h
    by_cases hp : 0xFFE < s.pc.toNat
    · exact .inr (.inl ⟨hf, hp, by simp [hf, hp]⟩)
    · cases hd : decode s.fetchWord with
      | error e => exact .inr (.inr (.inl ⟨hf, by omega, ⟨e, rfl⟩, by simp [hf, hp]⟩))
      | ok i => exact .inr (.inr (.inr ⟨i, hf, by omega, rfl, by simp [hf, hp]⟩))

end Sys2Proof.Machine
end

