-- ==== Sys2Proof/Laws/Exec.lean ====
section
/-! SUPPORT. What executing an instruction can do, said once over all instructions: it raises a fault on an untouched
state, or stops on an illegal SP, or answers a state with the halt record, `opcode` and the keypad as they were and the
random input either kept or taken. -/

namespace Sys2Proof.Machine

/-- The answer is a next state with the halt record, `opcode` and the keypad as they were, and the random input kept or
taken. -/
def Proceeds (r : Result) (s : State) : Prop :=
  ∃ t, r = .next t ∧ t.halted = s.halted ∧ t.faultCause = s.faultCause ∧ t.faultPc = s.faultPc ∧
    t.opcode = s.opcode ∧ t.key = s.key ∧ (t.rndIn = s.rndIn ∨ t.rndIn = none)

/-- A cause that an instruction may raise. -/
def Raises (r : Result) (s : State) : Prop :=
  ∃ c, c ≠ FaultCause.noFault ∧ c ≠ .fetchRange ∧ c ≠ .invalidOpcode ∧ r = raise c s

theorem skipIf_proceeds (c : Bool) (s : State) : Proceeds (skipIf c s) s :=
  ⟨_, skipIf_eq c s, rfl, rfl, rfl, rfl, rfl, .inl rfl⟩

theorem pushPc_outcome (target : Word) (s : State) : Raises (pushPc target s) s ∨ Proceeds (pushPc target s) s ∨
    (16 < s.sp.toNat ∧ pushPc target s = .fault .stackPointerOutOfRange) := by
  rcases pushPc_cases target s with ⟨_, h⟩ | ⟨_, h⟩ | h
  · exact .inl ⟨_, by decide, by decide, by decide, h⟩
  · exact .inr (.inl ⟨_, h, rfl, rfl, rfl, rfl, rfl, .inl rfl⟩)
  · exact .inr (.inr h)

theorem popPc_outcome (s : State) : Raises (popPc s) s ∨ Proceeds (popPc s) s ∨
    (16 < s.sp.toNat ∧ popPc s = .fault .stackPointerOutOfRange) := by
  rcases popPc_cases s with ⟨_, h⟩ | ⟨_, _, h⟩ | h
  · exact .inl ⟨_, by decide, by decide, by decide, h⟩
  · exact .inr (.inl ⟨_, h, rfl, rfl, rfl, rfl, rfl, .inl rfl⟩)
  · exact .inr (.inr h)

theorem storeAtI_outcome (bs : List Byte) (s : State) : Raises (storeAtI bs s) s ∨ Proceeds (storeAtI bs s) s := by
  rcases storeAtI_cases bs s with ⟨_, h⟩ | ⟨_, _, h⟩
  · exact .inr ⟨_, h, rfl, rfl, rfl, rfl, rfl, .inl rfl⟩
  · exact .inl ⟨_, by decide, by decide, by decide, h⟩

theorem loadRegs_outcome (x : Reg) (s : State) : Raises (execLoadRegs x s) s ∨ Proceeds (execLoadRegs x s) s := by
  unfold execLoadRegs
  split
  · refine .inr ⟨_, rfl, ?_⟩
    rw [State.loadFrom_eq]
    exact ⟨rfl, rfl, rfl, rfl, rfl, .inl rfl⟩
  · exact .inl ⟨_, by decide, by decide, by decide, rfl⟩

theorem drw_outcome (x y : Reg) (n : Nat) (s : State) : Raises (execDrw x y n s) s ∨ Proceeds (execDrw x y n s) s := by
  unfold execDrw
  split
  · rcases drawPixels_cases (spritePixels (anchorY (s.reg y)) (anchorX (s.reg x)) (s.spriteRows n)) s with
      ⟨_, h⟩ | ⟨_, h⟩
    · exact .inr ⟨_, h, rfl, rfl, rfl, rfl, rfl, .inl rfl⟩
    · exact .inl ⟨_, by decide, by decide, by decide, h⟩
  · exact .inl ⟨_, by decide, by decide, by decide, rfl⟩

theorem skipOnKey_outcome (want : Bool) (x : Reg) (s : State) :
    Raises (skipOnKey want x s) s ∨ Proceeds (skipOnKey want x s) s := by
  unfold skipOnKey
  split
  · exact .inl ⟨_, by decide, by decide, by decide, rfl⟩
  · exact .inr (skipIf_proceeds _ s)

theorem waitKey_proceeds (x : Reg) (s : State) : Proceeds (execWaitKey x s) s := by
  unfold execWaitKey
  split <;> exact ⟨_, rfl, rfl, rfl, rfl, rfl, rfl, .inl rfl⟩

/-- Everything executing an instruction can do, as far as the halt record goes. -/
theorem exec_outcome (i : Instr) (s : State) : Raises (exec i s) s ∨ Proceeds (exec i s) s ∨
    (16 < s.sp.toNat ∧ (i = .ret ∨ ∃ nnn, i = .call nnn) ∧ exec i s = .fault .stackPointerOutOfRange) := by
  cases i with
  | ret => exact (popPc_outcome s).imp id (Or.imp id fun h => ⟨h.1, .inl rfl, h.2⟩)
  | call nnn => exact (pushPc_outcome _ s).imp id (Or.imp id fun h => ⟨h.1, .inr ⟨nnn, rfl⟩, h.2⟩)
  | seImm x kk => exact .inr (.inl (skipIf_proceeds _ s))
  | sneImm x kk => exact .inr (.inl (skipIf_proceeds _ s))
  | seReg x y => exact .inr (.inl (skipIf_proceeds _ s))
  | sneReg x y => exact .inr (.inl (skipIf_proceeds _ s))
  | drw x y n => exact (drw_outcome x y n s).imp id .inl
  | skp x => exact (skipOnKey_outcome true x s).imp id .inl
  | sknp x => exact (skipOnKey_outcome false x s).imp id .inl
  | waitKey x => exact .inr (.inl (waitKey_proceeds x s))
  | storeBcd x => exact (storeAtI_outcome _ s).imp id .inl
  | storeRegs x => exact (storeAtI_outcome _ s).imp id .inl
  | loadRegs x => exact (loadRegs_outcome x s).imp id .inl
  | rnd x kk => exact .inr (.inl ⟨_, rfl, rfl, rfl, rfl, rfl, rfl, .inr rfl⟩)
  | cls | jp | ldImm | addImm | ldReg | orReg | andReg | xorReg | addReg | subReg | shr | subnReg | shl | ldI | jpV0
  | getDt | setDt | setSt | addI | ldFont => exact .inr (.inl ⟨_, rfl, rfl, rfl, rfl, rfl, rfl, .inl rfl⟩)

end Sys2Proof.Machine
end

