-- ==== Sys2Proof/Laws/PerInstr.lean ====
section
/-! SUPPORT. The per-instruction family EncodesInItsRow: an instruction's word selects the row of
`spec/30_encoding.md` R66 that the instruction stands for, whatever its operands. -/

namespace Sys2Proof.Laws.EncodesInItsRow

/-- The word of the instruction selects the instruction's row. -/
def Statement (i : Instr) : Prop := encode i &&& i.row.mask = i.row.value

theorem nnn_and (f g : BitVec 4) (a b : BitVec 12) :
    packNnn f a &&& packNnn g b = packNnn (f &&& g) (a &&& b) := BitVec.and_append

theorem xkk_and (f g : BitVec 4) (x : Reg) (a b : Byte) :
    packXkk f x a &&& packXkk g 0 b = packXkk (f &&& g) 0 (a &&& b) := by
  have h : regField x &&& regField 0 = regField 0 := by simp [regField]
  refine (BitVec.and_append).trans ?_
  rw [BitVec.and_append, h]; rfl

theorem xyn_and (f g : BitVec 4) (x y : Reg) (a b : BitVec 4) :
    packXyn f x y a &&& packXyn g 0 0 b = packXyn (f &&& g) 0 0 (a &&& b) := by
  have h : ∀ z : Reg, regField z &&& regField 0 = regField 0 := by simp [regField]
  refine (BitVec.and_append).trans ?_
  rw [BitVec.and_append, BitVec.and_append, h, h]; rfl

/-- A word whose row examines the family only. -/
theorem nnn_row (f : BitVec 4) (a : BitVec 12) : packNnn f a &&& 0xF000 = packNnn f 0 := by
  have h := nnn_and f 0xF a 0
  rw [show (0xF : BitVec 4) = BitVec.allOnes 4 from rfl, BitVec.and_allOnes, show a &&& 0 = 0 from BitVec.and_zero] at h
  exact h

theorem xkk_row (f : BitVec 4) (x : Reg) (a : Byte) : packXkk f x a &&& 0xF000 = packXkk f 0 0 := by
  have h := xkk_and f 0xF x a 0
  rw [show (0xF : BitVec 4) = BitVec.allOnes 4 from rfl, BitVec.and_allOnes, show a &&& 0 = 0 from BitVec.and_zero] at h
  exact h

theorem xyn_row (f : BitVec 4) (x y : Reg) (a : BitVec 4) : packXyn f x y a &&& 0xF000 = packXyn f 0 0 0 := by
  have h := xyn_and f 0xF x y a 0
  rw [show (0xF : BitVec 4) = BitVec.allOnes 4 from rfl, BitVec.and_allOnes, show a &&& 0 = 0 from BitVec.and_zero] at h
  exact h

/-- A word whose row examines the low byte. -/
theorem low_byte_row (f : BitVec 4) (x : Reg) (a : Byte) : packXkk f x a &&& 0xF0FF = packXkk f 0 a := by
  have h := xkk_and f 0xF x a 0xFF
  rw [show (0xF : BitVec 4) = BitVec.allOnes 4 from rfl, show (0xFF : Byte) = BitVec.allOnes 8 from rfl,
    BitVec.and_allOnes, BitVec.and_allOnes] at h
  exact h

/-- A word whose row examines the low nibble. -/
theorem low_nibble_row (f : BitVec 4) (x y : Reg) (a : BitVec 4) :
    packXyn f x y a &&& 0xF00F = packXyn f 0 0 a := by
  have h := xyn_and f 0xF x y a 0xF
  rw [show (0xF : BitVec 4) = BitVec.allOnes 4 from rfl, BitVec.and_allOnes, BitVec.and_allOnes] at h
  exact h

theorem cls : Statement (.cls) := low_byte_row _ _ _
theorem ret : Statement (.ret) := low_byte_row _ _ _
theorem jp (nnn : BitVec 12) : Statement (.jp nnn) := nnn_row _ _
theorem call (nnn : BitVec 12) : Statement (.call nnn) := nnn_row _ _
theorem seImm (x : Reg) (kk : Byte) : Statement (.seImm x kk) := xkk_row _ _ _
theorem sneImm (x : Reg) (kk : Byte) : Statement (.sneImm x kk) := xkk_row _ _ _
theorem seReg (x y : Reg) : Statement (.seReg x y) := xyn_row _ _ _ _
theorem ldImm (x : Reg) (kk : Byte) : Statement (.ldImm x kk) := xkk_row _ _ _
theorem addImm (x : Reg) (kk : Byte) : Statement (.addImm x kk) := xkk_row _ _ _
theorem ldReg (x y : Reg) : Statement (.ldReg x y) := low_nibble_row _ _ _ _
theorem orReg (x y : Reg) : Statement (.orReg x y) := low_nibble_row _ _ _ _
theorem andReg (x y : Reg) : Statement (.andReg x y) := low_nibble_row _ _ _ _
theorem xorReg (x y : Reg) : Statement (.xorReg x y) := low_nibble_row _ _ _ _
theorem addReg (x y : Reg) : Statement (.addReg x y) := low_nibble_row _ _ _ _
theorem subReg (x y : Reg) : Statement (.subReg x y) := low_nibble_row _ _ _ _
theorem shr (x y : Reg) : Statement (.shr x y) := low_nibble_row _ _ _ _
theorem subnReg (x y : Reg) : Statement (.subnReg x y) := low_nibble_row _ _ _ _
theorem shl (x y : Reg) : Statement (.shl x y) := low_nibble_row _ _ _ _
theorem sneReg (x y : Reg) : Statement (.sneReg x y) := xyn_row _ _ _ _
theorem ldI (nnn : BitVec 12) : Statement (.ldI nnn) := nnn_row _ _
theorem jpV0 (nnn : BitVec 12) : Statement (.jpV0 nnn) := nnn_row _ _
theorem rnd (x : Reg) (kk : Byte) : Statement (.rnd x kk) := xkk_row _ _ _
theorem drw (x y : Reg) (n : Nat) : Statement (.drw x y n) := xyn_row _ _ _ _
theorem skp (x : Reg) : Statement (.skp x) := low_byte_row _ _ _
theorem sknp (x : Reg) : Statement (.sknp x) := low_byte_row _ _ _
theorem getDt (x : Reg) : Statement (.getDt x) := low_byte_row _ _ _
theorem waitKey (x : Reg) : Statement (.waitKey x) := low_byte_row _ _ _
theorem setDt (x : Reg) : Statement (.setDt x) := low_byte_row _ _ _
theorem setSt (x : Reg) : Statement (.setSt x) := low_byte_row _ _ _
theorem addI (x : Reg) : Statement (.addI x) := low_byte_row _ _ _
theorem ldFont (x : Reg) : Statement (.ldFont x) := low_byte_row _ _ _
theorem storeBcd (x : Reg) : Statement (.storeBcd x) := low_byte_row _ _ _
theorem storeRegs (x : Reg) : Statement (.storeRegs x) := low_byte_row _ _ _
theorem loadRegs (x : Reg) : Statement (.loadRegs x) := low_byte_row _ _ _

end Sys2Proof.Laws.EncodesInItsRow
end

