-- ==== Sys2Proof/Tests/Slice0.lean ====
section
/-! SUPPORT. Tests: decodings of words written out from `spec/30_encoding.md` R66, steps with the results of
`spec/95_test_vectors.md` (named by their number there), the WellFormed smoke test, and the witnesses that the
hypotheses of the statements can be met, at the boundary of each clause. -/

namespace Sys2Proof.Tests

open Sys2Proof.Machine Sys2Proof.Says

/-! ## WellFormed smoke -/

theorem smoke_row_count_of_16_is_refused : Instr.wf (.drw 0 0 16) = false := by decide

theorem smoke_row_count_of_15_is_accepted : Instr.wf (.drw 0 0 15) = true := by decide

/-! ## Decoding: one word per row of R66, written out from its pattern -/

theorem test_decode_cls : decode 0b0000_0000_1110_0000 = .ok .cls := by decide
theorem test_decode_ret : decode 0b0000_0000_1110_1110 = .ok .ret := by decide
theorem test_decode_jp : decode 0b0001_1010_0101_0011 = .ok (.jp 0xA53) := by decide
theorem test_decode_call : decode 0b0010_0011_0000_0001 = .ok (.call 0x301) := by decide
theorem test_decode_seImm : decode 0b0011_0011_1000_0111 = .ok (.seImm 3 0x87) := by decide
theorem test_decode_sneImm : decode 0b0100_1100_0101_1010 = .ok (.sneImm 12 0x5A) := by decide
theorem test_decode_seReg : decode 0b0101_0001_0010_0000 = .ok (.seReg 1 2) := by decide
theorem test_decode_ldImm : decode 0b0110_1010_0000_0101 = .ok (.ldImm 10 0x05) := by decide
theorem test_decode_addImm : decode 0b0111_1010_0000_0011 = .ok (.addImm 10 0x03) := by decide
theorem test_decode_ldReg : decode 0b1000_0001_0010_0000 = .ok (.ldReg 1 2) := by decide
theorem test_decode_orReg : decode 0b1000_0001_0010_0001 = .ok (.orReg 1 2) := by decide
theorem test_decode_andReg : decode 0b1000_0001_0010_0010 = .ok (.andReg 1 2) := by decide
theorem test_decode_xorReg : decode 0b1000_0001_0010_0011 = .ok (.xorReg 1 2) := by decide
theorem test_decode_addReg : decode 0b1000_0000_0001_0100 = .ok (.addReg 0 1) := by decide
theorem test_decode_subReg : decode 0b1000_0001_0010_0101 = .ok (.subReg 1 2) := by decide
theorem test_decode_shr : decode 0b1000_0001_0010_0110 = .ok (.shr 1 2) := by decide
theorem test_decode_subnReg : decode 0b1000_0001_0010_0111 = .ok (.subnReg 1 2) := by decide
theorem test_decode_shl : decode 0b1000_0001_0010_1110 = .ok (.shl 1 2) := by decide
theorem test_decode_sneReg : decode 0b1001_0001_0010_0000 = .ok (.sneReg 1 2) := by decide
theorem test_decode_ldI : decode 0b1010_0001_0010_0011 = .ok (.ldI 0x123) := by decide
theorem test_decode_jpV0 : decode 0b1011_0011_0000_0010 = .ok (.jpV0 0x302) := by decide
theorem test_decode_rnd : decode 0b1100_0011_0000_1111 = .ok (.rnd 3 0x0F) := by decide
theorem test_decode_drw : decode 0b1101_0001_0010_0101 = .ok (.drw 1 2 5) := by decide
theorem test_decode_skp : decode 0b1110_0101_1001_1110 = .ok (.skp 5) := by decide
theorem test_decode_sknp : decode 0b1110_0101_1010_0001 = .ok (.sknp 5) := by decide
theorem test_decode_getDt : decode 0b1111_0010_0000_0111 = .ok (.getDt 2) := by decide
theorem test_decode_waitKey : decode 0b1111_0011_0000_1010 = .ok (.waitKey 3) := by decide
theorem test_decode_setDt : decode 0b1111_0010_0001_0101 = .ok (.setDt 2) := by decide
theorem test_decode_setSt : decode 0b1111_0010_0001_1000 = .ok (.setSt 2) := by decide
theorem test_decode_addI : decode 0b1111_0010_0001_1110 = .ok (.addI 2) := by decide
theorem test_decode_ldFont : decode 0b1111_0010_0010_1001 = .ok (.ldFont 2) := by decide
theorem test_decode_storeBcd : decode 0b1111_0010_0011_0011 = .ok (.storeBcd 2) := by decide
theorem test_decode_storeRegs : decode 0b1111_0011_0101_0101 = .ok (.storeRegs 3) := by decide
theorem test_decode_loadRegs : decode 0b1111_0011_0110_0101 = .ok (.loadRegs 3) := by decide

/-- E6, E9, E10, E12 and E13: the classic SYS word, three other words that match no row, and a 5xyN with N ≠ 0. -/
theorem test_decode_rejects_by_name :
    decode 0x0123 = .error (.family0 0x23) ∧ decode 0x8128 = .error (.family8 8) ∧
    decode 0xE100 = .error (.familyE 0x00) ∧ decode 0xF0FF = .error (.familyF 0xFF) ∧
    decode 0x512F = .ok (.seReg 1 2) := by decide

/-- E7 and E8: op[11:8] of family 0 is not examined. -/
theorem test_decode_ignores_bits_11_8_of_family_0 : decode 0x01EE = .ok .ret ∧ decode 0x0FE0 = .ok .cls := by decide

theorem test_decodeBytes_high_byte_first :
    decodeBytes [0x6A, 0x05, 0x7A] = .ok (.ldImm 10 5, [0x7A]) ∧ decodeBytes [0x6A] = .error .truncated := by decide

/-! ## Steps -/

/-- The state after one STEP of the word at the state's PC. -/
def after (s : State) (w : Nat) : Option State :=
  match step (s.withFetchWord 16 w) with
  | .next t => some t
  | _ => none

/-- Reset with V1 = a and V2 = b. -/
def regs12 (a b : Byte) : State := (State.reset.setReg 1 a).setReg 2 b

/-- What a halted state says: cause, fault address, PC. -/
def haltOf (t : State) : Bool × FaultCause × Word × Word := (t.halted, t.faultCause, t.faultPc, t.pc)

/-! ### Control flow: F1-F15 -/

theorem test_F1_ret_underflow :
    (after State.reset 0x00EE).map haltOf = some (true, .stackUnderflow, 0x200, 0x200) := by decide

theorem test_F2_ret_keeps_the_slot :
    (after { State.reset with sp := 2, stack := State.reset.stack.set 1 0x456 } 0x00EE).map
      (fun t => (t.sp, t.pc, t.stack[1])) = some (1, 0x456, 0x456) := by decide

theorem test_F3_jp : (after State.reset 0x1234).map (·.pc) = some 0x234 := by decide

theorem test_F5_call_fills_the_last_slot :
    (after { State.reset with sp := 15 } 0x2400).map (fun t => (t.stack[15], t.sp, t.pc)) =
      some (0x202, 16, 0x400) := by decide

theorem test_F6_call_overflow :
    (after { State.reset with sp := 16 } 0x2400).map (fun t => (haltOf t, t.sp)) =
      some ((true, .stackOverflow, 0x200, 0x200), 16) := by decide

theorem test_F7_se_immediate :
    (after (State.reset.setReg 3 7) 0x3307).map (·.pc) = some 0x204 ∧
    (after (State.reset.setReg 3 7) 0x3308).map (·.pc) = some 0x202 := by decide

theorem test_F8_sne_immediate :
    (after (State.reset.setReg 3 7) 0x4307).map (·.pc) = some 0x202 ∧
    (after (State.reset.setReg 3 7) 0x4308).map (·.pc) = some 0x204 := by decide

theorem test_F9_se_registers :
    (after (regs12 9 9) 0x5120).map (·.pc) = some 0x204 ∧ (after (regs12 9 8) 0x5120).map (·.pc) = some 0x202 := by decide

theorem test_F12_sne_registers :
    (after (regs12 9 8) 0x9120).map (·.pc) = some 0x204 ∧ (after (regs12 9 9) 0x9120).map (·.pc) = some 0x202 := by decide

theorem test_F14_jp_v0_exceeds_memory : (after (State.reset.setReg 0 0xFF) 0xBFFF).map (·.pc) = some 0x10FE := by decide

theorem test_F15_skip_past_the_end :
    (after { State.reset with pc := 0xFFE } 0x3000).map (·.pc) = some 0x1002 := by decide

/-! ### Arithmetic and logic: A1-A26, S3, S4 -/

theorem test_S3_ld_immediate : (after State.reset 0x6A05).map (fun t => (t.reg 10, t.pc)) = some (5, 0x202) := by decide

theorem test_A1_add_immediate_wraps_without_flag :
    (after ((State.reset.setReg 1 0xFF).setReg 15 0x55) 0x7101).map (fun t => (t.reg 1, t.reg 15)) =
      some (0x00, 0x55) := by decide

theorem test_A4_ld_register : (after (regs12 0 0x3C) 0x8120).map (·.reg 1) = some 0x3C := by decide

theorem test_A6_or_leaves_vf :
    (after ((regs12 0xF0 0x0F).setReg 15 0x77) 0x8121).map (fun t => (t.reg 1, t.reg 15)) = some (0xFF, 0x77) := by decide

theorem test_A7_and_leaves_vf :
    (after ((regs12 0xF0 0x3C).setReg 15 0x77) 0x8122).map (fun t => (t.reg 1, t.reg 15)) = some (0x30, 0x77) := by decide

theorem test_A8_xor :
    (after (regs12 0xF0 0x3C) 0x8123).map (·.reg 1) = some 0xCC ∧
    (after (regs12 0xF0 0x3C) 0x8113).map (·.reg 1) = some 0x00 := by decide

theorem test_S4_add_carry :
    (after ((State.reset.setReg 0 0xFF).setReg 1 0x01) 0x8014).map (fun t => (t.reg 0, t.reg 15)) =
      some (0x00, 1) := by decide

theorem test_A11_add_into_vf_keeps_the_flag :
    (after ((State.reset.setReg 1 0xF5).setReg 15 0x10) 0x8F14).map (·.reg 15) = some 1 := by decide

theorem test_A12_sub_borrow : (after (regs12 5 7) 0x8125).map (fun t => (t.reg 1, t.reg 15)) = some (0xFE, 0) := by decide

theorem test_A14_sub_equal : (after (regs12 5 5) 0x8125).map (fun t => (t.reg 1, t.reg 15)) = some (0x00, 1) := by decide

theorem test_A18_shr_does_not_read_vy :
    (after (regs12 0x80 0x01) 0x8126).map (fun t => (t.reg 1, t.reg 15)) = some (0x40, 0) := by decide

theorem test_A19_shr_of_vf : (after (State.reset.setReg 15 0x03) 0x8F06).map (·.reg 15) = some 1 := by decide

theorem test_A20_subn : (after (regs12 5 7) 0x8127).map (fun t => (t.reg 1, t.reg 15)) = some (0x02, 1) := by decide

theorem test_A21_subn_borrow : (after (regs12 7 5) 0x8127).map (fun t => (t.reg 1, t.reg 15)) = some (0xFE, 0) := by decide

theorem test_A23_shl : (after (regs12 0x81 0) 0x810E).map (fun t => (t.reg 1, t.reg 15)) = some (0x02, 1) := by decide

theorem test_A25_shl_of_vf : (after (State.reset.setReg 15 0x80) 0x8F0E).map (·.reg 15) = some 1 := by decide

theorem test_A26_rnd_masks_the_input :
    (after { State.reset with rndIn := some 0xA7 } 0xC30F).map (·.reg 3) = some 0x07 ∧
    (after { State.reset with rndIn := some 0xA7 } 0xC3FF).map (·.reg 3) = some 0xA7 := by decide

/-! ### Index and memory: M1-M17 -/

/-- Reset with I = i. -/
def atI (i : Word) : State := { State.reset with i := i }

theorem test_M1_ld_i : (after State.reset 0xA123).map (·.i) = some 0x0123 := by decide

theorem test_M3_add_i_wraps_without_flag :
    (after (((atI 0xFFFF).setReg 0 1).setReg 15 9) 0xF01E).map (fun t => (t.i, t.reg 15)) = some (0x0000, 9) := by decide

theorem test_M5_font_address : (after (State.reset.setReg 0 0x0A) 0xF029).map (·.i) = some 0x082 := by decide

theorem test_M6_font_address_of_a_whole_byte : (after (State.reset.setReg 0 0xFF) 0xF029).map (·.i) = some 0x54B := by
  decide

theorem test_M7_bcd :
    (after ((atI 0x300).setReg 0 254) 0xF033).map (fun t => (t.readByte 0x300, t.readByte 0x301, t.readByte 0x302)) =
      some (2, 5, 4) := by decide

theorem test_M10_bcd_out_of_range :
    (after ((atI 0xFFE).setReg 0 123) 0xF033).map (fun t => (haltOf t, t.readByte 0xFFE)) =
      some ((true, .memRange, 0x200, 0x200), 0) := by decide

theorem test_M11_store_one_register :
    (after ((atI 0x400).setReg 0 0xAB) 0xF055).map (fun t => (t.readByte 0x400, t.readByte 0x401, t.i)) =
      some (0xAB, 0, 0x400) := by decide

theorem test_M14_store_address_is_not_truncated :
    (after (atI 0xFFFF) 0xF055).map haltOf = some (true, .memRange, 0x200, 0x200) := by decide

theorem test_S8_load_registers :
    (after ((atI 0x400).writeBytes 0x400 [1, 2, 3, 4, 5]) 0xF365).map
      (fun t => ([t.reg 0, t.reg 1, t.reg 2, t.reg 3, t.reg 4], t.i)) = some ([1, 2, 3, 4, 0], 0x400) := by decide

theorem test_M16_load_out_of_range :
    (after ((atI 0x1000).setReg 0 7) 0xF065).map (fun t => (haltOf t, t.reg 0)) =
      some ((true, .memRange, 0x200, 0x200), 7) := by decide

/-! ### Display: G1-G13, S2, S6 -/

/-- Reset with I = 0x300, the bytes of a sprite there, Vx = x and Vy = y in V1 and V2. -/
def sprite (bytes : List Byte) (x y : Byte) : State := { regs12 x y with i := 0x300 }.writeBytes 0x300 bytes

theorem test_G1_cls : (after { State.reset with fb := [(3, lit), (2047, lit)] } 0x00E0).map (·.fb) = some [] := by decide

set_option maxRecDepth 4000 in
theorem test_G3_draw_spills_into_the_next_row :
    (after (sprite [0xC0] 63 0) 0xD121).map (fun t => (t.fb, t.reg 15)) = some ([(63, lit), (64, lit)], 0) := by decide

set_option maxRecDepth 4000 in
theorem test_S6_second_draw_collides :
    (after { sprite [0x80] 0 0 with fb := [(0, lit)] } 0xD121).map (fun t => (t.fb, t.reg 15)) = some ([], 1) := by decide

/-! ### Keypad and timers: K1-K12 -/

/-- Reset with V5 = a and key[12] = b. -/
def key12 (a b : Byte) : State := (State.reset.setReg 5 a).setKey 12 b

theorem test_K1_skp :
    (after (key12 12 0xFF) 0xE59E).map (·.pc) = some 0x204 ∧ (after (key12 12 0) 0xE59E).map (·.pc) = some 0x202 := by
  decide

theorem test_K4_skp_key_range :
    (after (key12 16 0) 0xE59E).map haltOf = some (true, .keyRange, 0x200, 0x200) := by decide

theorem test_K3_sknp :
    (after (key12 12 0) 0xE5A1).map (·.pc) = some 0x204 ∧ (after (key12 12 1) 0xE5A1).map (·.pc) = some 0x202 := by decide

theorem test_K4_sknp_key_range :
    (after (key12 16 0) 0xE5A1).map haltOf = some (true, .keyRange, 0x200, 0x200) := by decide

theorem test_K5_wait_rewinds :
    (after (State.reset.setReg 15 2) 0xFF0A).map (fun t => (t.pc, t.reg 15)) = some (0x200, 2) := by decide

theorem test_K6_wait_takes_the_lowest_key :
    (after ((State.reset.setKey 7 1).setKey 3 1) 0xF10A).map (fun t => (t.reg 1, t.pc)) = some (3, 0x202) := by decide

theorem test_K7_get_dt : (after { State.reset with dt := 0x3C } 0xF207).map (·.reg 2) = some 0x3C := by decide

theorem test_K8_set_dt : (after (regs12 0 0x3C) 0xF215).map (fun t => (t.dt, t.st)) = some (0x3C, 0) := by decide

theorem test_K9_set_st : (after (regs12 0 0x05) 0xF218).map (fun t => (t.dt, t.st)) = some (0, 0x05) := by decide

/-! ### Fetch and the host's operations: E2, E4, E5, K11, K13, K14, L2, L3, S1 -/

theorem test_E2_fetch_range :
    (match step { State.reset with pc := 0xFFF, opcode := 0x1234 } with
      | .next t => some (haltOf t, t.opcode)
      | _ => none) = some ((true, .fetchRange, 0xFFF, 0xFFF), 0x1234) := by decide

theorem test_E4_odd_pc : (after { State.reset with pc := 0x201 } 0x6007).map (fun t => (t.reg 0, t.pc)) =
    some (7, 0x203) := by decide

theorem test_E5_reset_memory_is_no_program :
    (match step State.reset with
      | .next t => some (haltOf t, t.opcode)
      | _ => none) = some ((true, .invalidOpcode, 0x200, 0x200), 0x0000) := by decide

theorem test_K11_tick : ((tick { State.reset with st := 0xFF }).dt, (tick { State.reset with st := 0xFF }).st) =
    (0, 0xFE) := by decide

theorem test_K14_key_write : (State.reset.setKey 4 1).keySlot 4 = 1 ∧ (State.reset.setKey 4 1).keySlot 5 = 0 := by decide

theorem test_L3_load_nothing : load [] State.reset = (State.reset, .loadOk) := by decide

theorem test_S2_load_then_fetch : (load [0x00, 0xE0] State.reset).1.fetchWord = 0x00E0 := by decide

set_option maxRecDepth 20000 in
theorem test_S1_reset_copies_the_font : resetWith defaultFont = State.reset := by decide

/-! ## Witnesses: the hypotheses of each statement can be met, at the boundary of each clause -/

theorem witness_RetPopsTheReturnAddress :
    { State.reset with sp := 1 }.sp.toNat = (0 : Fin 16).val + 1 ∧
    { State.reset with sp := 16 }.sp.toNat = (15 : Fin 16).val + 1 ∧
    Fetches (State.reset.withFetchWord 16 0x00EE) .ret ∧ (State.reset.withFetchWord 16 0x00EE).sp = 0 :=
  ⟨by decide, by decide, ⟨⟨by decide, by decide⟩, by decide⟩, by decide⟩

theorem reset_meets_the_invariant_fields : State.reset.sp.toNat ≤ 16 ∧ State.reset.pc.toNat ≤ 0x10FE := by decide

theorem witness_JumpsGoToTheirTarget :
    State.reset.halted = false ∧ exec (.jp 0xFFF) State.reset = .next { State.reset with pc := 0xFFF } ∧
    0xFFE < { State.reset with pc := 0xFFF }.pc.toNat ∧
    Fetches (State.reset.withFetchWord 16 0x1200) (.jp 0x200) ∧
    (State.reset.withFetchWord 16 0x1200).pc.toNat = (0x200 : BitVec 12).toNat :=
  ⟨by decide, rfl, by decide, ⟨⟨by decide, by decide⟩, by decide⟩, by decide⟩

theorem witness_CallPushesTheReturnAddress :
    State.reset.sp.toNat = (0 : Fin 16).val ∧ { State.reset with sp := 15 }.sp.toNat = (15 : Fin 16).val ∧
    Fetches ({ State.reset with sp := 16 }.withFetchWord 16 0x2400) (.call 0x400) ∧
    ({ State.reset with sp := 16 }.withFetchWord 16 0x2400).sp = 16 :=
  ⟨by decide, by decide, ⟨⟨by decide, by decide⟩, by decide⟩, by decide⟩

theorem witness_SkipsOnAnImmediate : (regs12 7 0).reg 1 = 7 ∧ (regs12 7 0).reg 1 ≠ 8 := by decide

theorem witness_SkipsOnRegisters :
    (regs12 9 9).reg 1 = (regs12 9 9).reg 2 ∧ (regs12 9 8).reg 1 ≠ (regs12 9 8).reg 2 := by decide

theorem witness_RandomByteIsMasked :
    Fetches (State.reset.withFetchWord 16 0xC300) (.rnd 3 0x00) ∧
    Fetches (State.reset.withFetchWord 16 0xC3FF) (.rnd 3 0xFF) :=
  ⟨⟨⟨by decide, by decide⟩, by decide⟩, ⟨⟨by decide, by decide⟩, by decide⟩⟩

theorem witness_BcdStoresThreeDigits :
    (atI 0xFFD).i.toNat + 2 ≤ 0xFFF ∧ Fetches ((atI 0xFFE).withFetchWord 16 0xF033) (.storeBcd 0) ∧
    0xFFF < ((atI 0xFFE).withFetchWord 16 0xF033).i.toNat + 2 :=
  ⟨by decide, ⟨⟨by decide, by decide⟩, by decide⟩, by decide⟩

theorem witness_StoreRegistersAtI :
    (atI 0xFF0).i.toNat + (15 : Reg).val ≤ 0xFFF ∧ Fetches ((atI 0xFF1).withFetchWord 16 0xFF55) (.storeRegs 15) ∧
    0xFFF < ((atI 0xFF1).withFetchWord 16 0xFF55).i.toNat + (15 : Reg).val :=
  ⟨by decide, ⟨⟨by decide, by decide⟩, by decide⟩, by decide⟩

theorem witness_LoadRegistersFromI :
    (atI 0xFFF).i.toNat + (0 : Reg).val ≤ 0xFFF ∧ Fetches ((atI 0x1000).withFetchWord 16 0xF065) (.loadRegs 0) ∧
    0xFFF < ((atI 0x1000).withFetchWord 16 0xF065).i.toNat + (0 : Reg).val :=
  ⟨by decide, ⟨⟨by decide, by decide⟩, by decide⟩, by decide⟩

theorem witness_LoadReadsBackWhatStoreWrote :
    ∃ t, (atI 0xFF0).i.toNat + (15 : Reg).val ≤ 0xFFF ∧ exec (.storeRegs 15) (atI 0xFF0) = .next t ∧
      (t.setReg 0 9).mem = t.mem ∧ (t.setReg 0 9).i = t.i := ⟨_, by decide, rfl, rfl, rfl⟩

/-- A sprite of one byte with bit 7 set covers one pixel, its anchor. -/
theorem one_pixel_sprite (s : State) (hb : s.readByte s.i.toNat = 0x80) (p : Nat) (h : SpriteCovers s 1 2 1 p) :
    p = (s.reg 2).toNat % 64 * 64 + (s.reg 1).toNat % 64 := by
  obtain ⟨r, c, hr, hc, hs, rfl⟩ := h
  obtain rfl : r = 0 := by omega
  simp only [Nat.add_zero, hb] at hs ⊢
  have : c = 0 := by
    by_contra hne
    have : ∀ k : Fin 8, k ≠ 0 → (0x80 : Byte).getLsbD (7 - k.val) = false := by decide
    have := this ⟨c, by omega⟩ (by simpa [Fin.ext_iff] using hne)
    simp_all
  omega

theorem witness_DrawXorsTheSprite :
    (sprite [0x80] 63 31).i.toNat + 1 - 1 ≤ 0xFFF ∧ (∀ p, SpriteCovers (sprite [0x80] 63 31) 1 2 1 p → p ≤ 2047) ∧
    SpriteCovers (sprite [0x80] 63 31) 1 2 1 2047 := by
  refine ⟨by decide, fun p h => ?_, ⟨0, 0, by decide, by decide, by decide, by decide⟩⟩
  rw [one_pixel_sprite _ (by decide) p h]
  decide

theorem witness_DrawFaultsOutOfRange :
    (Fetches ((atI 0xFFF).withFetchWord 16 0xD012) (.drw 0 1 2) ∧
      0xFFF < ((atI 0xFFF).withFetchWord 16 0xD012).i.toNat + 2 - 1) ∧
    (Fetches ((sprite [0x80] 0 32).withFetchWord 16 0xD121) (.drw 1 2 1) ∧
      ((sprite [0x80] 0 32).withFetchWord 16 0xD121).i.toNat + 1 - 1 ≤ 0xFFF ∧
      SpriteCovers ((sprite [0x80] 0 32).withFetchWord 16 0xD121) 1 2 1 2048) :=
  ⟨⟨⟨⟨by decide, by decide⟩, by decide⟩, by decide⟩, ⟨⟨by decide, by decide⟩, by decide⟩, by decide,
    ⟨0, 0, by decide, by decide, by decide, by decide⟩⟩

/-- Reset meets the invariant in the fields the witnesses need. -/
theorem inv_of_reset_fields (s : State) (h : s.sp = 0 ∧ s.pc = 0x200 ∧ s.stack = State.reset.stack ∧ Memory.wf s.mem ∧
    s.fb = [] ∧ s.halted = false ∧ s.faultCause = .noFault ∧ s.faultPc = 0) : s.Inv := by
  obtain ⟨h1, h2, h3, h4, h5, h6, h7, h8⟩ := h
  refine ⟨by rw [h1]; decide, by rw [h2]; decide, by
    intro j; rw [h3]; simp [State.reset], h4, ?_, ?_, by rw [h6, h7]; decide, by
    rw [h8, h6]; rfl⟩
  · rw [h5]; exact ⟨List.Pairwise.nil, by simp⟩
  · intro p; right; rw [State.pixel, h5]; rfl

theorem witness_DrawingTwiceRestoresThePixels :
    (∃ t, (sprite [0x80] 0 0).Inv ∧ (sprite [0x80] 0 0).halted = false ∧
      exec (.drw 1 2 1) (sprite [0x80] 0 0) = .next t ∧ t.halted = false ∧ (1 : Reg) ≠ 15 ∧ (2 : Reg) ≠ 15) ∧
    ∃ t, exec (.drw 15 2 1) (sprite [0x80] 0 0) = .next t ∧ t.halted = false ∧
      (t.setReg 15 0).fb = t.fb ∧ (t.setReg 15 0).mem = t.mem ∧ (t.setReg 15 0).i = t.i ∧
      (t.setReg 15 0).reg 15 = (sprite [0x80] 0 0).reg 15 ∧ (t.setReg 15 0).reg 2 = (sprite [0x80] 0 0).reg 2 :=
  ⟨⟨_, inv_of_reset_fields _ (by decide), by decide, rfl, rfl, by decide, by decide⟩,
    _, rfl, rfl, rfl, rfl, rfl, by decide, by decide⟩

theorem witness_OnlyClsAndDrwChangeTheFramebuffer :
    ∃ t r, perform defaultFont .reset { State.reset with fb := [(0, lit)] } = .next (t, r) ∧ t.fb ≠ [(0, lit)] :=
  ⟨_, _, rfl, by simp [resetWith, State.writeBytes, State.reset]⟩

theorem witness_SkipsOnAKey :
    ((key12 12 1).reg 5).toNat = (12 : Reg).val ∧ (key12 12 1).key[(12 : Reg)] ≠ 0 ∧ (key12 12 0).key[(12 : Reg)] = 0 ∧
    Fetches ((key12 16 0).withFetchWord 16 0xE59E) (.skp 5) ∧ Fetches ((key12 16 0).withFetchWord 16 0xE5A1) (.sknp 5) ∧
    15 < (((key12 16 0).withFetchWord 16 0xE59E).reg 5).toNat :=
  ⟨by decide, by decide, by decide, ⟨⟨by decide, by decide⟩, by decide⟩, ⟨⟨by decide, by decide⟩, by decide⟩, by decide⟩

theorem witness_WaitForAKey :
    (State.reset.setKey 15 1).key[(15 : Reg)] ≠ 0 ∧ (∀ j : Reg, j < 15 → (State.reset.setKey 15 1).key[j] = 0) ∧
    Fetches (State.reset.withFetchWord 16 0xF30A) (.waitKey 3) ∧
    (∀ k : Reg, (State.reset.withFetchWord 16 0xF30A).key[k] = 0) :=
  ⟨by decide, by decide, ⟨⟨by decide, by decide⟩, by decide⟩, by decide⟩

theorem witness_StepRunsTheDecodedInstruction :
    Fetches ({ State.reset with pc := 0xFFE }.withFetchWord 16 0x6012) (.ldImm 0 0x12) :=
  ⟨⟨by decide, by decide⟩, by decide⟩

theorem witness_FetchPastTheEndFaults :
    { State.reset with pc := 0xFFF }.halted = false ∧ 0xFFE < { State.reset with pc := 0xFFF }.pc.toNat := by decide

/-- The state an instruction of STEP(rnd) is executed on. -/
abbrev fetchedWith (rnd : Byte) (s : State) : State :=
  { s with opcode := wordAt s, pc := s.pc + 2, rndIn := some rnd }

theorem witness_StepOperationFollowsTheCycle :
    State.reset.rndIn = none ∧ { State.reset with halted := true }.halted = true ∧
    0xFFE < { State.reset with pc := 0xFFF }.pc.toNat ∧ Runs { State.reset with pc := 0xFFE } ∧
    (∀ i, decode (wordAt State.reset) ≠ .ok i) ∧
    (∃ t, Fetches (State.reset.withFetchWord 16 0x6012) (.ldImm 0 0x12) ∧
      exec (.ldImm 0 0x12) (fetchedWith 0xA7 (State.reset.withFetchWord 16 0x6012)) = .next t) ∧
    ∃ t, Fetches (State.reset.withFetchWord 16 0x00EE) .ret ∧
      exec .ret (fetchedWith 0xA7 (State.reset.withFetchWord 16 0x00EE)) = .next t ∧ t.halted = true := by
  refine ⟨rfl, rfl, by decide, ⟨by decide, by decide⟩, fun i h => ?_, ⟨_, ⟨⟨by decide, by decide⟩, by decide⟩, rfl⟩,
    ⟨_, ⟨⟨by decide, by decide⟩, by decide⟩, rfl, rfl⟩⟩
  have e : decode (wordAt State.reset) = .error (.family0 0) := by decide
  rw [e] at h
  cases h

theorem witness_InvalidWords : Runs State.reset ∧ ∀ i, decode (wordAt State.reset) ≠ .ok i :=
  ⟨⟨by decide, by decide⟩, witness_StepOperationFollowsTheCycle.2.2.2.2.1⟩

theorem witness_OpcodeMapIsUnambiguous :
    decode 0xF065 = .ok (.loadRegs 0) ∧ (⟨0xF0FF, 0xF065⟩ : Row) ∈ opcodeMap ∧
    Row.selectedBy ⟨0xF0FF, 0xF065⟩ 0xF065 = true := by decide

theorem witness_UnexaminedBitsMakeNoDifference :
    (familyOf 0x5120 = 0x5 ∧ (0x5120 : Word) &&& 0xFFF0 = 0x512F &&& 0xFFF0) ∧
    (familyOf 0x9120 = 0x9 ∧ (0x9120 : Word) &&& 0xFFF0 = 0x912F &&& 0xFFF0) ∧
    (decode 0x00E0 = .ok .cls ∧ (0x00E0 : Word) &&& 0xF0FF = 0x0FE0 &&& 0xF0FF) ∧
    (decode 0x00EE = .ok .ret ∧ (0x00EE : Word) &&& 0xF0FF = 0x01EE &&& 0xF0FF) := by decide

theorem witness_DecodeOfEncodeIsTheInstruction : Instr.wf (.drw 15 0 15) = true := by decide

theorem witness_EncodeOfDecodeIsTheWord : decode 0x01EE = .ok .ret ∧ decode 0x912F = .ok (.sneReg 1 2) := by decide

theorem witness_FaultsArePrecise :
    ∃ t, State.reset.halted = false ∧ step State.reset = .next t ∧ t.halted = true := ⟨_, rfl, rfl, rfl⟩

theorem witness_EachFaultHasItsCondition :
    ∃ t, State.reset.halted = false ∧ State.reset.sp.toNat ≤ 16 ∧ step State.reset = .next t :=
  ⟨_, rfl, by decide, rfl⟩

theorem witness_HaltIsHeldUntilReset :
    { State.reset with halted := true, faultCause := .stackOverflow }.halted = true ∧ State.reset.rndIn = none ∧
    HostOp.tick ≠ .reset ∧ ∀ rnd, HostOp.tick ≠ .step rnd := ⟨rfl, rfl, by decide, fun _ => by simp⟩

theorem witness_NoReturnFromAFault :
    ∃ t, HostOp.reset ∉ [HostOp.tick] ∧ { State.reset with halted := true }.Faulted ∧
      runOps defaultFont [.tick] { State.reset with halted := true } = .next t := ⟨_, by decide, rfl, rfl⟩

theorem witness_SafeRunsHaveSafePrefixes :
    HostOp.reset ∉ [HostOp.tick] ++ [.keyWrite 4 1] ∧ SafeRun defaultFont ([.tick] ++ [.keyWrite 4 1]) State.reset :=
  ⟨by decide, _, rfl, by decide⟩

theorem witness_EveryInstructionIsExecutable : { State.reset with sp := 16 }.sp.toNat ≤ 16 := by decide

/-- SP = 17, the first illegal value, and 255, the last: RET and CALL stop; at SP = 16, the last legal one, they do
not. -/
theorem witness_OnlyAnIllegalSpStops :
    16 < { State.reset with sp := 17 }.sp.toNat ∧ 16 < { State.reset with sp := 255 }.sp.toNat ∧
    exec .ret { State.reset with sp := 17 } = .fault .stackPointerOutOfRange ∧
    exec (.call 0x300) { State.reset with sp := 17 } = .fault .stackPointerOutOfRange ∧
    exec .ret { State.reset with sp := 255 } = .fault .stackPointerOutOfRange ∧
    exec (.call 0x300) { State.reset with sp := 255 } = .fault .stackPointerOutOfRange ∧
    (∃ t, exec .ret { State.reset with sp := 16 } = .next t) ∧
    ∃ t, exec (.call 0x300) { State.reset with sp := 16 } = .next t :=
  ⟨by decide, by decide, rfl, rfl, rfl, rfl, ⟨_, rfl⟩, _, rfl⟩

theorem witness_EveryScheduleKeepsTheInvariant :
    (∃ t, step State.reset = .next t) ∧ State.reset.Inv ∧ State.reset.rndIn = none :=
  ⟨⟨_, rfl⟩, inv_of_reset_fields _ (by decide), rfl⟩

theorem witness_StepKeepsTheInvariant : ∃ t, State.reset.Inv ∧ step State.reset = .next t :=
  ⟨_, inv_of_reset_fields _ (by decide), rfl⟩

theorem witness_EachPieceOfStateHasItsWriters :
    ∃ t, exec (.ldImm 3 7) State.reset = .next t ∧ t.reg 3 ≠ State.reset.reg 3 := ⟨_, rfl, by decide⟩

theorem witness_OnlyControlTransfersMovePc :
    ∃ t, State.reset.halted = false ∧ exec (.seImm 3 0) State.reset = .next t ∧ t.halted = false ∧
      t.pc ≠ State.reset.pc := ⟨_, rfl, rfl, rfl, by decide⟩

theorem witness_OpcodeIsNotObservable :
    (∃ t, exec .cls State.reset = .next t) ∧ ∃ t, Runs State.reset ∧ step State.reset = .next t :=
  ⟨⟨_, rfl⟩, _, ⟨rfl, by decide⟩, rfl⟩

theorem witness_NoInstructionReadsTheSoundTimer :
    ∃ t, (∀ x, Instr.cls ≠ .setSt x) ∧ exec .cls State.reset = .next t := ⟨_, fun _ => by simp, rfl⟩

theorem witness_OnlyRndUsesTheRandomByte : ∀ x kk, decode (wordAt State.reset) ≠ .ok (.rnd x kk) :=
  fun _ _ => witness_InvalidWords.2 _

theorem witness_ReturnUndoesCall :
    ∃ t, { State.reset with sp := 15 }.sp.toNat < 16 ∧ exec (.call 0x300) { State.reset with sp := 15 } = .next t ∧
      (t.setReg 0 9).stack = t.stack ∧ (t.setReg 0 9).sp = t.sp := ⟨_, by decide, rfl, rfl, rfl⟩

theorem witness_JumpToSelfRunsForEver :
    Fetches (State.reset.withFetchWord 16 0x1200) (.jp 0x200) ∧
    (State.reset.withFetchWord 16 0x1200).pc.toNat = (0x200 : BitVec 12).toNat :=
  ⟨⟨⟨by decide, by decide⟩, by decide⟩, by decide⟩

theorem witness_KeyWaitRunsForEver :
    Fetches (State.reset.withFetchWord 16 0xF30A) (.waitKey 3) ∧
    (∀ k : Reg, (State.reset.withFetchWord 16 0xF30A).key[k] = 0) ∧
    ∀ op ∈ [HostOp.tick, .step 0xA7], op = .tick ∨ ∃ rnd, op = .step rnd :=
  ⟨witness_WaitForAKey.2.2.1, by decide, by simp⟩

/-- V0 = 123 is stored as 1, 2, 3 at 0x300, and a later PC may be at any of the four places. -/
theorem witness_FetchSeesEarlierStores_bcd :
    ∃ t, ((atI 0x300).setReg 0 123).i.toNat + 2 ≤ 0xFFF ∧ exec (.storeBcd 0) ((atI 0x300).setReg 0 123) = .next t ∧
      (∀ w, { t with pc := w }.mem = t.mem) ∧
      (1 : Byte).toNat = (((atI 0x300).setReg 0 123).reg 0).toNat / 100 ∧
      (2 : Byte).toNat = (((atI 0x300).setReg 0 123).reg 0).toNat / 10 % 10 ∧
      (3 : Byte).toNat = (((atI 0x300).setReg 0 123).reg 0).toNat % 10 ∧
      { t with pc := 0x2FF }.pc.toNat + 1 = ((atI 0x300).setReg 0 123).i.toNat ∧
      { t with pc := 0x302 }.pc.toNat = ((atI 0x300).setReg 0 123).i.toNat + 2 :=
  ⟨_, by decide, rfl, fun _ => rfl, by decide, by decide, by decide, by decide, by decide⟩

theorem witness_FetchSeesEarlierStores :
    (∃ t, (atI 0x300).i.toNat + (15 : Reg).val ≤ 0xFFF ∧ exec (.storeRegs 15) (atI 0x300) = .next t ∧
      { t with pc := 0x30E }.mem = t.mem ∧ (14 : Reg).val + 1 ≤ (15 : Reg).val ∧
      { t with pc := 0x30E }.pc.toNat = (atI 0x300).i.toNat + (14 : Reg).val) ∧
    (∃ t, perform defaultFont (.load [0x60, 0x01, 0x22]) State.reset = .next (t, .loadOk) ∧
      { t with pc := 0x201 }.mem = t.mem ∧ { t with pc := 0x201 }.pc.toNat = 0x200 + 1 ∧
      1 + 1 < [0x60, 0x01, (0x22 : Byte)].length) :=
  ⟨⟨_, by decide, rfl, rfl, by decide, by decide⟩, ⟨_, rfl, rfl, rfl, by decide⟩⟩

theorem witness_LoadCopiesTheImage :
    (List.replicate 3584 (0x11 : Byte)).length ≤ 4096 - 0x200 ∧ 4096 - 0x200 < (List.replicate 3585 (0x11 : Byte)).length :=
  ⟨by rw [List.length_replicate], by rw [List.length_replicate]; decide⟩

theorem witness_KeyWriteAndTheReads : (5 : Reg) ≠ 4 ∧ (31 : Fin 32).val * 64 + (63 : Fin 64).val < 2048 := by decide

end Sys2Proof.Tests
end

/-! The invariant of `Safety.lean` along a run: which updates of the state keep it, that every shared operation and
every instruction answers a state that meets it, then STEP, the host's operations and their schedules
(`spec/00_scope.md` R7, `spec/10_state.md` R24, R25, R30, R33). -/

namespace Sys2Proof.Machine

variable {s : State}

/-! ## Updates that keep the invariant -/

/-- The invariant says nothing of V0..VF, I, the timers, the keypad, `opcode` and the random input. -/
theorem State.Inv.of_unconstrained (h : s.Inv) {v : Vector Byte 16} {i : Word} {dt st : Byte} {key : Vector Byte 16}
    {opcode : Word} {rndIn : Option Byte} {draws : Nat} :
    State.Inv { s with v := v, i := i, dt := dt, st := st, key := key, opcode := opcode, rndIn := rndIn,
                       draws := draws } :=
  ⟨h.sp_legal, h.pc_bound, h.stack_bound, h.mem_wf, h.fb_wf, h.fb_lit, h.halt_cause, h.halt_pc⟩

theorem State.Inv.setPc (h : s.Inv) (hrun : s.halted = false) {w : Word} (hw : w.toNat ≤ 0x10FE) : (s.setPc w).Inv :=
  ⟨h.sp_legal, hw, h.stack_bound, h.mem_wf, h.fb_wf, h.fb_lit, h.halt_cause, by simpa [hrun] using h.halt_pc⟩

theorem State.Inv.enterFault (h : s.Inv) {c : FaultCause} (hc : c ≠ .noFault) {p : Word} (hp : p.toNat ≤ 0x10FE) :
    (s.enterFault c p).Inv :=
  ⟨h.sp_legal, hp, h.stack_bound, h.mem_wf, h.fb_wf, h.fb_lit, by simpa using hc, by simp⟩

theorem State.Inv.writeBytes (h : s.Inv) {a : Nat} {bs : List Byte} (ha : a + bs.length ≤ Config.memSize) :
    (s.writeBytes a bs).Inv :=
  ⟨h.sp_legal, h.pc_bound, h.stack_bound, Memory.wf_writeBytes bs ha h.mem_wf, h.fb_wf, h.fb_lit, h.halt_cause,
    h.halt_pc⟩

theorem State.Inv.withFb (h : s.Inv) {f : Framebuffer} (hwf : Framebuffer.wf f)
    (hlit : ∀ p, f.read p = lit ∨ f.read p = unlit) : State.Inv { s with fb := f } :=
  ⟨h.sp_legal, h.pc_bound, h.stack_bound, h.mem_wf, hwf, hlit, h.halt_cause, h.halt_pc⟩

/-- A new stack and SP, with the jump that goes with them. -/
theorem State.Inv.withStack (h : s.Inv) (hrun : s.halted = false) {sp : Byte} {stack : Vector Word 16} {pc : Word}
    (hsp : sp.toNat ≤ 16) (hstack : ∀ j : Fin 16, stack[j].toNat ≤ 0x1000) (hpc : pc.toNat ≤ 0x10FE) :
    State.Inv { s with stack := stack, sp := sp, pc := pc } :=
  ⟨hsp, hpc, hstack, h.mem_wf, h.fb_wf, h.fb_lit, h.halt_cause, by simpa [hrun] using h.halt_pc⟩

/-- XOR with LIT takes each of the two pixel values to the other, so flips leave only these (R30). -/
theorem Framebuffer.flipAll_lit_or_unlit (ps : List Nat) (f : Framebuffer)
    (h : ∀ p, f.read p = lit ∨ f.read p = unlit) (q : Nat) :
    (f.flipAll ps).read q = lit ∨ (f.flipAll ps).read q = unlit := by
  induction ps generalizing f with
  | nil => exact h q
  | cons p rest ih =>
    refine ih (f.flip p) fun j => ?_
    rw [Framebuffer.read_flip]
    split
    · rcases h p with e | e <;> rw [e]
      · exact .inr lit_xor_lit
      · exact .inl unlit_xor_lit
    · exact h j

/-! ## Between fetch and execute -/

/-- What holds of the state an instruction is executed on: the fetch has read a word inside memory and moved PC past
it (R61, R62). -/
structure State.InExecute (s : State) : Prop where
  inv : s.Inv
  running : s.halted = false
  pc_low : 2 ≤ s.pc.toNat
  pc_high : s.pc.toNat ≤ 0x1000

theorem State.Inv.fetched_inExecute (h : s.Inv) (hrun : s.halted = false) (hpc : s.pc.toNat ≤ 0xFFE) :
    s.fetched.InExecute := by
  have hadd : s.fetched.pc.toNat = s.pc.toNat + 2 := by rw [State.fetched_pc]; bv_omega
  have hinv : (s.setPc (s.pc + 2)).Inv := h.setPc hrun (show s.fetched.pc.toNat ≤ _ by omega)
  exact ⟨hinv.of_unconstrained, hrun, by omega, by omega⟩

/-- The instruction's own address is one PC can take. -/
theorem State.InExecute.pc0_bound (h : s.InExecute) : s.pc0.toNat ≤ 0x10FE := by
  have := h.pc_low
  have := h.pc_high
  unfold State.pc0
  bv_omega

theorem addressWord_toNat_lt (nnn : BitVec 12) : (addressWord nnn).toNat < 0x1000 := by
  have := nnn.isLt
  simp only [addressWord, BitVec.truncate_eq_setWidth, BitVec.toNat_setWidth]
  omega

theorem byteWord_toNat_lt (b : Byte) : (byteWord b).toNat < 0x100 := by
  have := b.isLt
  simp only [byteWord, BitVec.truncate_eq_setWidth, BitVec.toNat_setWidth]
  omega

/-! ## The shared operations -/

/-- The result is a next state, and that state meets the invariant. -/
def AnswersInv (r : Result) : Prop := ∃ t, r = .next t ∧ t.Inv

theorem raise_answersInv (h : s.InExecute) {c : FaultCause} (hc : c ≠ .noFault) : AnswersInv (raise c s) :=
  ⟨_, rfl, h.inv.enterFault hc h.pc0_bound⟩

theorem skipIf_answersInv (h : s.InExecute) (c : Bool) : AnswersInv (skipIf c s) := by
  have := h.pc_high
  cases c with
  | false => exact ⟨_, rfl, h.inv⟩
  | true => exact ⟨_, rfl, h.inv.setPc h.running (by bv_omega)⟩

theorem pushPc_answersInv (h : s.InExecute) {target : Word} (ht : target.toNat ≤ 0x10FE) :
    AnswersInv (pushPc target s) := by
  rcases pushPc_cases target s with ⟨_, e⟩ | ⟨hlt, e⟩ | ⟨hgt, _⟩
  · exact e ▸ raise_answersInv h (by decide)
  · refine ⟨_, e, h.inv.withStack h.running (by bv_omega) (fun j => ?_) ht⟩
    have hj := h.inv.stack_bound j
    simp only [Fin.getElem_fin, Vector.getElem_set] at hj ⊢
    split
    · exact h.pc_high
    · exact hj
  · exact absurd h.inv.sp_legal (by omega)

theorem popPc_answersInv (h : s.InExecute) : AnswersInv (popPc s) := by
  have hsp := h.inv.sp_legal
  rcases popPc_cases s with ⟨_, e⟩ | ⟨hlt, hpos, e⟩ | ⟨hgt, _⟩
  · exact e ▸ raise_answersInv h (by decide)
  · have hslot : s.stack[s.sp.toNat - 1].toNat ≤ 0x1000 := h.inv.stack_bound ⟨s.sp.toNat - 1, hlt⟩
    exact ⟨_, e, h.inv.withStack h.running (by bv_omega) h.inv.stack_bound (by omega)⟩
  · omega

theorem storeAtI_answersInv (h : s.InExecute) {bs : List Byte} (hbs : 0 < bs.length) : AnswersInv (storeAtI bs s) := by
  rcases storeAtI_cases bs s with ⟨hr, e⟩ | ⟨_, _, e⟩
  · exact ⟨_, e, h.inv.writeBytes (hr.resolve_left (by omega))⟩
  · exact e ▸ raise_answersInv h (by decide)

theorem execLoadRegs_answersInv (h : s.InExecute) (x : Reg) : AnswersInv (execLoadRegs x s) := by
  unfold execLoadRegs
  split
  · rw [State.loadFrom_eq]
    exact ⟨_, rfl, h.inv.of_unconstrained⟩
  · exact raise_answersInv h (by decide)

theorem drawPixels_answersInv (h : s.InExecute) (ps : List Nat) : AnswersInv (drawPixels ps s) := by
  rcases drawPixels_cases ps s with ⟨hps, e⟩ | ⟨_, e⟩
  · exact ⟨_, e, (h.inv.withFb (Framebuffer.wf_flipAll ps hps h.inv.fb_wf)
      (Framebuffer.flipAll_lit_or_unlit ps s.fb h.inv.fb_lit)).of_unconstrained⟩
  · exact e ▸ raise_answersInv h (by decide)

theorem execDrw_answersInv (h : s.InExecute) (x y : Reg) (n : Nat) : AnswersInv (execDrw x y n s) := by
  unfold execDrw
  split
  · exact drawPixels_answersInv h _
  · exact raise_answersInv h (by decide)

theorem skipOnKey_answersInv (h : s.InExecute) (want : Bool) (x : Reg) : AnswersInv (skipOnKey want x s) := by
  unfold skipOnKey
  split
  · exact raise_answersInv h (by decide)
  · exact skipIf_answersInv h _

theorem execWaitKey_answersInv (h : s.InExecute) (x : Reg) : AnswersInv (execWaitKey x s) := by
  unfold execWaitKey
  split
  · exact ⟨_, rfl, h.inv.setPc h.running h.pc0_bound⟩
  · exact ⟨_, rfl, h.inv.of_unconstrained⟩

/-! ## Instructions and STEP -/

/-- Every instruction, executed after a fetch, answers a state that meets the invariant. -/
theorem exec_answersInv (i : Instr) (h : s.InExecute) : AnswersInv (exec i s) := by
  cases i with
  | cls => exact ⟨_, rfl, h.inv.withFb Framebuffer.wf_empty fun _ => .inr rfl⟩
  | ret => exact popPc_answersInv h
  | jp nnn =>
    have := addressWord_toNat_lt nnn
    exact ⟨_, rfl, h.inv.setPc h.running (by omega)⟩
  | call nnn =>
    have := addressWord_toNat_lt nnn
    exact pushPc_answersInv h (by omega)
  | jpV0 nnn =>
    have := addressWord_toNat_lt nnn
    have := byteWord_toNat_lt (s.reg 0)
    exact ⟨_, rfl, h.inv.setPc h.running (by bv_omega)⟩
  | seImm | sneImm | seReg | sneReg => exact skipIf_answersInv h _
  | skp | sknp => exact skipOnKey_answersInv h _ _
  | waitKey x => exact execWaitKey_answersInv h x
  | drw x y n => exact execDrw_answersInv h x y n
  | storeBcd => exact storeAtI_answersInv h (by simp)
  | storeRegs => exact storeAtI_answersInv h (by simp)
  | loadRegs x => exact execLoadRegs_answersInv h x
  | ldImm | addImm | ldReg | orReg | andReg | xorReg | addReg | subReg | shr | subnReg | shl | rnd | ldI | addI
  | ldFont | getDt | setDt | setSt => exact ⟨_, rfl, h.inv.of_unconstrained⟩

/-- A step from a state that meets the invariant answers one that meets it. -/
theorem step_answersInv (h : s.Inv) : AnswersInv (step s) := by
  rcases step_cases s with ⟨_, e⟩ | ⟨_, _, e⟩ | ⟨hrun, hpc, _, e⟩ | ⟨i, hrun, hpc, _, e⟩
  · exact ⟨s, e, h⟩
  · exact ⟨_, e, h.enterFault (by decide) h.pc_bound⟩
  · exact e ▸ raise_answersInv (h.fetched_inExecute hrun hpc) (by decide)
  · exact e ▸ exec_answersInv i (h.fetched_inExecute hrun hpc)

/-- An executed instruction keeps the random input or takes it; none sets one. -/
theorem exec_keeps_rndIn_none {i : Instr} {t : State} (h : exec i s = .next t) (hs : s.rndIn = none) :
    t.rndIn = none := by
  rcases exec_outcome i s with ⟨c, _, _, _, e⟩ | ⟨u, e, _, _, _, _, _, hu⟩ | ⟨_, _, e⟩
  · obtain rfl : s.enterFault c s.pc0 = t := by simpa [e, raise] using h
    exact hs
  · obtain rfl : u = t := by simpa [e] using h
    exact hu.elim (·.trans hs) id
  · simp [e] at h

theorem step_keeps_rndIn_none {t : State} (h : step s = .next t) (hs : s.rndIn = none) : t.rndIn = none := by
  rcases step_cases s with ⟨_, e⟩ | ⟨_, _, e⟩ | ⟨_, _, _, e⟩ | ⟨i, _, _, _, e⟩
  · obtain rfl : s = t := by simpa [e] using h
    exact hs
  · obtain rfl : s.enterFault .fetchRange s.pc = t := by simpa [e] using h
    exact hs
  · obtain rfl : s.fetched.enterFault .invalidOpcode s.fetched.pc0 = t := by simpa [e, raise] using h
    exact hs
  · exact exec_keeps_rndIn_none (e.symm.trans h) hs

/-! ## The host's operations -/

theorem State.reset_inv : State.reset.Inv where
  sp_legal := by decide
  pc_bound := by decide
  stack_bound j := by simp [State.reset]
  mem_wf := Memory.wf_empty
  fb_wf := Framebuffer.wf_empty
  fb_lit _ := .inr rfl
  halt_cause := by decide
  halt_pc := rfl

theorem resetWith_inv (font : Font) : (resetWith font).Inv :=
  State.reset_inv.writeBytes (by simp [Config.fontBase, Config.memSize])

theorem resetWith_rndIn (font : Font) : (resetWith font).rndIn = none := rfl

theorem load_keeps_inv (h : s.Inv) (bytes : List Byte) : (load bytes s).1.Inv := by
  unfold load
  split <;> rename_i hsize
  · exact h
  · have : Config.startAddress ≤ Config.memSize := by decide
    unfold Config.maxProgram at hsize
    exact h.writeBytes (by omega)

theorem load_rndIn (s : State) (bytes : List Byte) : (load bytes s).1.rndIn = s.rndIn := by
  unfold load
  split <;> rfl

/-- STEP(rnd) answers a state that meets the invariant, and its random input does not outlive it (R72). -/
theorem stepWith_answersInv (h : s.Inv) (rnd : Byte) : ∃ t, stepWith rnd s = .next t ∧ t.Inv ∧ t.rndIn = none := by
  obtain ⟨t, e, ht⟩ := step_answersInv (s := { s with rndIn := some rnd }) h.of_unconstrained
  exact ⟨{ t with rndIn := none }, by simp [stepWith, e], ht.of_unconstrained, rfl⟩

/-- Every operation of the host answers a state that meets the invariant, with no random input left if there was none
before. -/
theorem perform_keeps_inv (font : Font) (op : HostOp) (h : s.Inv) :
    ∃ t r, perform font op s = .next (t, r) ∧ t.Inv ∧ (s.rndIn = none → t.rndIn = none) := by
  cases op with
  | reset => exact ⟨_, _, rfl, resetWith_inv font, fun _ => resetWith_rndIn font⟩
  | load bytes => exact ⟨_, _, rfl, load_keeps_inv h bytes, (load_rndIn s bytes).trans⟩
  | step rnd =>
    obtain ⟨t, e, ht, hr⟩ := stepWith_answersInv h rnd
    exact ⟨t, stepReply t, by simp [perform, e], ht, fun _ => hr⟩
  | tick | keyWrite => exact ⟨_, _, rfl, h.of_unconstrained, id⟩
  | fbRead | stRead | statusRead => exact ⟨_, _, rfl, h, id⟩

/-- Every schedule runs to its end in a state that meets the invariant, by induction on the schedule. -/
theorem runOps_keeps_inv (font : Font) (ops : List HostOp) (h : s.Inv) (hr : s.rndIn = none) :
    ∃ t, runOps font ops s = .next t ∧ t.Inv ∧ t.rndIn = none := by
  induction ops generalizing s with
  | nil => exact ⟨s, rfl, h, hr⟩
  | cons op rest ih =>
    obtain ⟨t, r, e, ht, htr⟩ := perform_keeps_inv font op h
    obtain ⟨u, eu, hu⟩ := ih ht (htr hr)
    exact ⟨u, by simp [runOps, e, eu], hu⟩

/-- Settles O46: each operation keeps the invariant, so by induction every schedule does; RESET establishes it. -/
theorem everyScheduleKeepsTheInvariant : Obligations.EveryScheduleKeepsTheInvariant :=
  ⟨fun font op _ h => perform_keeps_inv font op h, fun _ _ => step_keeps_rndIn_none,
    fun font ops _ => runOps_keeps_inv font ops,
    fun font ops => runOps_keeps_inv font ops (resetWith_inv font) (resetWith_rndIn font)⟩

end Sys2Proof.Machine

/-! The state's own statements (`spec/10_state.md`): the invariant at reset and over a step, what RESET leaves, the one
stop of the model, which instruction writes which piece of state, and that `opcode` and ST are not read. -/

namespace Sys2Proof.Machine

open Sys2Proof.Says

variable {s t : State} {i : Instr}

/-! ## The invariant -/

/-- Settles O45: a step from a state that meets the invariant answers one that meets it, and it answers one state. -/
theorem stepKeepsTheInvariant : Obligations.StepKeepsTheInvariant := by
  intro s t hs ht
  obtain ⟨u, hu, huInv⟩ := step_answersInv hs
  obtain rfl : u = t := by simpa [hu] using ht
  exact huInv

/-- Settles O44: every field of the invariant, read off the reset state (`State.reset_inv`). -/
theorem resetMeetsTheInvariant : Obligations.ResetMeetsTheInvariant := State.reset_inv

/-! ## The one stop -/

theorem exec_ret_of_illegal_sp (h : 16 < s.sp.toNat) : exec .ret s = .fault .stackPointerOutOfRange := by
  rcases popPc_cases s with ⟨hsp, _⟩ | ⟨hsp, _, _⟩ | ⟨_, e⟩
  · omega
  · omega
  · exact e

theorem exec_call_of_illegal_sp (nnn : BitVec 12) (h : 16 < s.sp.toNat) :
    exec (.call nnn) s = .fault .stackPointerOutOfRange := by
  rcases pushPc_cases (addressWord nnn) s with ⟨hsp, _⟩ | ⟨hsp, _⟩ | ⟨_, e⟩
  · omega
  · omega
  · exact e

/-- Settles O41: of the three outcomes of an instruction only the third has no next state, and CALL and RET reach it
from every SP above 16. -/
theorem onlyAnIllegalSpStops : Obligations.OnlyAnIllegalSpStops := by
  refine ⟨fun i s => ⟨fun hstop => ?_, ?_⟩,
    fun nnn s h => ⟨exec_ret_of_illegal_sp h, exec_call_of_illegal_sp nnn h⟩⟩
  · rcases exec_outcome i s with ⟨c, _, _, _, e⟩ | ⟨u, e, _⟩ | ⟨hsp, hi, _⟩
    · exact absurd e (hstop _)
    · exact absurd e (hstop _)
    · exact ⟨hsp, hi⟩
  · rintro ⟨hsp, rfl | ⟨nnn, rfl⟩⟩ t
    · simp [exec_ret_of_illegal_sp hsp]
    · simp [exec_call_of_illegal_sp nnn hsp]

/-! ## What RESET leaves -/

theorem memUnlisted_eq_zero {a : Nat} (h : a < 0x050 ∨ 0x09F < a) : memUnlisted a = 0 := by
  unfold memUnlisted Config.fontBase
  split
  · have : defaultFont.toList.length ≤ a - 80 := by rw [Vector.length_toList]; omega
    rw [List.getD_eq_default _ _ this]
  · rfl

/-- A byte of memory after RESET: FONT's inside the font table, 0 elsewhere (R35, R37). -/
theorem readByte_resetWith (font : Font) (a : Nat) :
    (resetWith font).readByte a = if 0x050 ≤ a ∧ a < 0x050 + 80 then font.toList.getD (a - 0x050) 0 else 0 := by
  rw [resetWith, State.readByte_writeBytes, Vector.length_toList]
  unfold Config.fontBase
  split
  · rfl
  · exact memUnlisted_eq_zero (by omega)

theorem readByte_resetWith_font (font : Font) (k : Fin 80) : (resetWith font).readByte (0x050 + k.val) = font[k] := by
  rw [readByte_resetWith, if_pos (by omega)]
  simp [List.getD_eq_getElem?_getD]

/-- Settles O42: RESET's state is `State.reset` with FONT written at 0x050. -/
theorem resetLeavesTheResetTable : Obligations.ResetLeavesTheResetTable := by
  intro font s
  have hreg : ∀ x, (resetWith font).reg x = 0 := fun x => by simp [State.reg, resetWith, State.reset]
  have hstack : ∀ j : Fin 16, (resetWith font).stack[j] = 0 := fun j => by simp [resetWith, State.reset]
  have hkey : ∀ k : Reg, (resetWith font).key[k] = 0 := fun k => by simp [resetWith, State.reset]
  have hrest : ∀ a, a < 0x050 ∨ 0x09F < a → (resetWith font).readByte a = 0 := fun a ha => by
    rw [readByte_resetWith, if_neg (by omega)]
  exact ⟨resetWith font, rfl, rfl, hreg, rfl, rfl, rfl, hstack, rfl, rfl, hkey, fun _ => rfl,
    readByte_resetWith_font font, hrest, rfl, rfl, rfl, rfl⟩

theorem resetWith_eq (font : Font) : resetWith font = { State.reset with mem := (resetWith font).mem } := rfl

theorem readByte_reset (a : Nat) : State.reset.readByte a = memUnlisted a := rfl

/-- Unlisted memory reads as the default font, so RESET with it lists nothing: both memories are in canonical form and
read alike. -/
theorem resetWith_defaultFont : resetWith defaultFont = State.reset := by
  have hread : ∀ a, (resetWith defaultFont).readByte a = State.reset.readByte a := fun a => by
    rw [readByte_resetWith, readByte_reset]
    split <;> rename_i h
    · exact (if_pos h.1).symm
    · exact (memUnlisted_eq_zero (by omega)).symm
  have hmem := Memory.ext_read (resetWith_inv defaultFont).mem_wf State.reset_inv.mem_wf hread
  rw [resetWith_eq, hmem]

/-- Settles O43: the font bytes are RESET's for the default FONT; the 80 written out are read off the table. -/
theorem resetStateHasTheDefaultFont : Obligations.ResetStateHasTheDefaultFont := by
  refine ⟨rfl, resetWith_defaultFont, rfl, fun k => ?_, by decide⟩
  rw [← resetWith_defaultFont]
  exact readByte_resetWith_font defaultFont k

/-! ## What an instruction writes -/

/-- A piece of state that has its own writers among the instructions. -/
inductive Piece where
  | reg (y : Reg)
  | index
  | sp
  | stack
  | delay
  | sound
  | memory

/-- The two states hold the same in this piece. -/
def State.AgreesOn (s t : State) : Piece → Prop
  | .reg y => t.reg y = s.reg y
  | .index => t.i = s.i
  | .sp => t.sp = s.sp
  | .stack => t.stack = s.stack
  | .delay => t.dt = s.dt
  | .sound => t.st = s.st
  | .memory => t.mem = s.mem

/-- The pieces of state an instruction may write (R20's table, R23, R25 to R28, R40). -/
def Writable : Instr → Piece → Prop
  | .ldImm x _ | .addImm x _ | .ldReg x _ | .orReg x _ | .andReg x _ | .xorReg x _ | .rnd x _ | .getDt x
  | .waitKey x => fun p => p = .reg x
  | .addReg x _ | .subReg x _ | .shr x _ | .subnReg x _ | .shl x _ => fun p => p = .reg x ∨ p = .reg vf
  | .drw _ _ _ => fun p => p = .reg vf
  | .loadRegs x => fun p => ∃ y ≤ x, p = .reg y
  | .ldI _ | .addI _ | .ldFont _ => fun p => p = .index
  | .ret => fun p => p = .sp
  | .call _ => fun p => p = .sp ∨ p = .stack
  | .setDt _ => fun p => p = .delay
  | .setSt _ => fun p => p = .sound
  | .storeBcd _ | .storeRegs _ => fun p => p = .memory
  | .cls | .jp _ | .seImm _ _ | .sneImm _ _ | .seReg _ _ | .sneReg _ _ | .jpV0 _ | .skp _ | .sknp _ => fun _ => False

/-- A next state, where the answer is one, agrees with `s` on every piece outside `W`. -/
def WritesOnly (W : Piece → Prop) (r : Result) (s : State) : Prop :=
  ∀ t, r = .next t → ∀ p, ¬ W p → s.AgreesOn t p

variable {W : Piece → Prop}

theorem writesOnly_next (h : ∀ p, ¬ W p → s.AgreesOn t p) : WritesOnly W (.next t) s := by
  rintro _ ⟨⟩
  exact h

/-- PC, the framebuffer, the halt record and the random input are none of the pieces. -/
theorem State.agreesOn_of_outside {pc : Word} {fb : Framebuffer} {halted : Bool} {c : FaultCause} {faultPc : Word}
    {rndIn : Option Byte} {draws : Nat} (p : Piece) :
    s.AgreesOn { s with pc := pc, fb := fb, halted := halted, faultCause := c, faultPc := faultPc, rndIn := rndIn,
                        draws := draws } p := by
  cases p <;> rfl

theorem State.agreesOn_withV {v : Vector Byte 16} {p : Piece}
    (h : ∀ y, p = .reg y → State.reg { s with v := v } y = s.reg y) : s.AgreesOn { s with v := v } p := by
  cases p with
  | reg y => exact h y rfl
  | index | sp | stack | delay | sound | memory => rfl

theorem State.agreesOn_setReg {x : Reg} {b : Byte} {p : Piece} (h : p ≠ .reg x) : s.AgreesOn (s.setReg x b) p := by
  refine State.agreesOn_withV fun y hy => (State.reg_setReg s x y b).trans (if_neg ?_)
  rintro rfl
  exact h hy

theorem State.AgreesOn.trans {u : State} {p : Piece} (h : s.AgreesOn t p) (h' : t.AgreesOn u p) : s.AgreesOn u p := by
  cases p <;> exact Eq.trans h' h

theorem setReg_writesOnly (x : Reg) (b : Byte) (s : State) : WritesOnly (· = .reg x) (.next (s.setReg x b)) s :=
  writesOnly_next fun _ => State.agreesOn_setReg

theorem setResultThenFlag_writesOnly (x : Reg) (b : Byte) (f : Bool) (s : State) :
    WritesOnly (fun p => p = .reg x ∨ p = .reg vf) (.next (s.setResultThenFlag x b f)) s :=
  writesOnly_next fun _ h =>
    (State.agreesOn_setReg fun e => h (.inl e)).trans (State.agreesOn_setReg fun e => h (.inr e))

theorem setI_writesOnly (w : Word) (s : State) : WritesOnly (· = .index) (.next (s.setI w)) s :=
  writesOnly_next fun p h => by
    cases p with
    | index => exact absurd rfl h
    | reg | sp | stack | delay | sound | memory => rfl

theorem setDelay_writesOnly (b : Byte) (s : State) : WritesOnly (· = .delay) (.next (s.setDelay b)) s :=
  writesOnly_next fun p h => by
    cases p with
    | delay => exact absurd rfl h
    | reg | index | sp | stack | sound | memory => rfl

theorem setSound_writesOnly (b : Byte) (s : State) : WritesOnly (· = .sound) (.next (s.setSound b)) s :=
  writesOnly_next fun p h => by
    cases p with
    | sound => exact absurd rfl h
    | reg | index | sp | stack | delay | memory => rfl

theorem raise_writesOnly (c : FaultCause) (s : State) : WritesOnly W (raise c s) s :=
  writesOnly_next fun p _ => State.agreesOn_of_outside p

theorem skipIf_writesOnly (c : Bool) (s : State) : WritesOnly W (skipIf c s) s :=
  skipIf_eq c s ▸ writesOnly_next fun p _ => State.agreesOn_of_outside p

theorem pushPc_writesOnly (target : Word) (s : State) :
    WritesOnly (fun p => p = .sp ∨ p = .stack) (pushPc target s) s := by
  rcases pushPc_cases target s with ⟨_, e⟩ | ⟨_, e⟩ | ⟨_, e⟩
  · exact e ▸ raise_writesOnly _ s
  · refine e ▸ writesOnly_next fun p h => ?_
    cases p with
    | sp => exact absurd (.inl rfl) h
    | stack => exact absurd (.inr rfl) h
    | reg | index | delay | sound | memory => rfl
  · simp [e, WritesOnly]

theorem popPc_writesOnly (s : State) : WritesOnly (· = .sp) (popPc s) s := by
  rcases popPc_cases s with ⟨_, e⟩ | ⟨_, _, e⟩ | ⟨_, e⟩
  · exact e ▸ raise_writesOnly _ s
  · refine e ▸ writesOnly_next fun p h => ?_
    cases p with
    | sp => exact absurd rfl h
    | reg | index | stack | delay | sound | memory => rfl
  · simp [e, WritesOnly]

theorem storeAtI_writesOnly (bs : List Byte) (s : State) : WritesOnly (· = .memory) (storeAtI bs s) s := by
  rcases storeAtI_cases bs s with ⟨_, e⟩ | ⟨_, _, e⟩
  · refine e ▸ writesOnly_next fun p h => ?_
    cases p with
    | memory => exact absurd rfl h
    | reg | index | sp | stack | delay | sound => rfl
  · exact e ▸ raise_writesOnly _ s

theorem execLoadRegs_writesOnly (x : Reg) (s : State) :
    WritesOnly (fun p => ∃ y ≤ x, p = .reg y) (execLoadRegs x s) s := by
  unfold execLoadRegs
  split
  · rw [State.loadFrom_eq]
    refine writesOnly_next fun p h => State.agreesOn_withV fun y hy => ?_
    have hlt : ¬ y.val < x.val + 1 := fun hy' => h ⟨y, Fin.le_def.2 (by omega), hy⟩
    exact (State.reg_loadFrom s s.base (x.val + 1) x.isLt y).trans (if_neg hlt)
  · exact raise_writesOnly _ s

theorem drawPixels_writesOnly (ps : List Nat) (s : State) : WritesOnly (· = .reg vf) (drawPixels ps s) s := by
  unfold drawPixels
  split
  · exact writesOnly_next fun p h => (State.agreesOn_of_outside p).trans (State.agreesOn_setReg h)
  · exact raise_writesOnly _ s

theorem execDrw_writesOnly (x y : Reg) (n : Nat) (s : State) : WritesOnly (· = .reg vf) (execDrw x y n s) s := by
  unfold execDrw
  split
  · exact drawPixels_writesOnly _ s
  · exact raise_writesOnly _ s

theorem skipOnKey_writesOnly (want : Bool) (x : Reg) (s : State) : WritesOnly W (skipOnKey want x s) s := by
  unfold skipOnKey
  split
  · exact raise_writesOnly _ s
  · exact skipIf_writesOnly _ s

theorem execWaitKey_writesOnly (x : Reg) (s : State) : WritesOnly (· = .reg x) (execWaitKey x s) s := by
  unfold execWaitKey
  split
  · exact writesOnly_next fun p _ => State.agreesOn_of_outside p
  · exact setReg_writesOnly x _ s

/-- An instruction writes no piece of state but those of its row in the table `Writable`. -/
theorem exec_writesOnly (i : Instr) (s : State) : WritesOnly (Writable i) (exec i s) s := by
  cases i with
  | cls | jp | jpV0 => exact writesOnly_next fun p _ => State.agreesOn_of_outside p
  | ret => exact popPc_writesOnly s
  | call nnn => exact pushPc_writesOnly _ s
  | seImm | sneImm | seReg | sneReg => exact skipIf_writesOnly _ s
  | skp | sknp => exact skipOnKey_writesOnly _ _ s
  | ldImm x | addImm x | ldReg x | orReg x | andReg x | xorReg x | getDt x => exact setReg_writesOnly x _ s
  | rnd x kk => exact writesOnly_next fun p h => (State.agreesOn_of_outside p).trans (State.agreesOn_setReg h)
  | addReg x | subReg x | shr x | subnReg x | shl x => exact setResultThenFlag_writesOnly x _ _ s
  | ldI | addI | ldFont => exact setI_writesOnly _ s
  | drw x y n => exact execDrw_writesOnly x y n s
  | waitKey x => exact execWaitKey_writesOnly x s
  | setDt x => exact setDelay_writesOnly _ s
  | setSt x => exact setSound_writesOnly _ s
  | storeBcd | storeRegs => exact storeAtI_writesOnly _ s
  | loadRegs x => exact execLoadRegs_writesOnly x s

/-- No instruction writes the keypad or `opcode` (R29, R32). -/
theorem exec_keeps_key_and_opcode (h : exec i s = .next t) : t.key = s.key ∧ t.opcode = s.opcode := by
  rcases exec_outcome i s with ⟨c, _, _, _, e⟩ | ⟨u, e, _, _, _, hop, hkey, _⟩ | ⟨_, _, e⟩
  · obtain rfl : s.enterFault c s.pc0 = t := by simpa [e, raise] using h
    exact ⟨rfl, rfl⟩
  · obtain rfl : u = t := by simpa [e] using h
    exact ⟨hkey, hop⟩
  · simp [e] at h

/-! The table read off for one piece at a time. -/

theorem writable_index_iff :
    Writable i .index ↔ (∃ nnn, i = .ldI nnn) ∨ (∃ x, i = .addI x) ∨ ∃ x, i = .ldFont x := by
  cases i <;> simp [Writable]

theorem writable_sp_iff : Writable i .sp ↔ i = .ret ∨ ∃ nnn, i = .call nnn := by
  cases i <;> simp [Writable]

theorem writable_stack_iff : Writable i .stack ↔ ∃ nnn, i = .call nnn := by
  cases i <;> simp [Writable]

theorem writable_delay_iff : Writable i .delay ↔ ∃ x, i = .setDt x := by
  cases i <;> simp [Writable]

theorem writable_sound_iff : Writable i .sound ↔ ∃ x, i = .setSt x := by
  cases i <;> simp [Writable]

theorem writable_memory_iff : Writable i .memory ↔ (∃ x, i = .storeBcd x) ∨ ∃ x, i = .storeRegs x := by
  cases i <;> simp [Writable]

/-- Settles O47: a piece of state that differs after an instruction is in the instruction's row of the table
`Writable`. -/
theorem eachPieceOfStateHasItsWriters : Obligations.EachPieceOfStateHasItsWriters := by
  intro i s t h
  have differs (p : Piece) (hp : ¬ s.AgreesOn t p) : Writable i p :=
    by_contra fun hn => hp (exec_writesOnly i s t h p hn)
  refine ⟨fun y hy => ?_, fun hi => writable_index_iff.1 (differs .index hi),
    fun hsp => writable_sp_iff.1 (differs .sp hsp), fun hstack => writable_stack_iff.1 (differs .stack hstack),
    fun hdt => writable_delay_iff.1 (differs .delay hdt), fun hst => writable_sound_iff.1 (differs .sound hst),
    fun hmem => writable_memory_iff.1 (differs .memory hmem), exec_keeps_key_and_opcode h⟩
  have hreg := differs (.reg y) hy
  cases i with
  | ldImm | addImm | ldReg | orReg | andReg | xorReg | rnd | getDt | waitKey | drw => exact Piece.reg.inj hreg
  | addReg | subReg | shr | subnReg | shl => exact hreg.imp Piece.reg.inj Piece.reg.inj
  | loadRegs x =>
    obtain ⟨z, hz, e⟩ := hreg
    exact Piece.reg.inj e ▸ hz
  | cls | jp | seImm | sneImm | seReg | sneReg | jpV0 | skp | sknp => exact hreg
  | ret | ldI | addI | ldFont | setDt | setSt | storeBcd | storeRegs => exact nomatch hreg
  | call => exact hreg.elim nofun nofun

/-! ## What no instruction reads -/

/-- `opcode` and ST, the two pieces of state that no instruction reads, replaced. -/
def State.withUnread (s : State) (w : Word) (b : Byte) : State := { s with opcode := w, st := b }

/-- The answer with its next state, if it has one, changed by `f`. -/
def mapNext (f : State → State) : Result → Result
  | .next t => .next (f t)
  | .fault e => .fault e
  | .refused e => .refused e

section
variable (w : Word) (b : Byte) (s : State)

@[simp] theorem State.reg_withUnread (x : Reg) : (s.withUnread w b).reg x = s.reg x := rfl

@[simp] theorem State.base_withUnread : (s.withUnread w b).base = s.base := rfl

@[simp] theorem State.lowestKey_withUnread : (s.withUnread w b).lowestKey = s.lowestKey := rfl

theorem skipIf_withUnread (c : Bool) :
    skipIf c (s.withUnread w b) = mapNext (·.withUnread w b) (skipIf c s) := by
  cases c <;> rfl

theorem pushPc_withUnread (target : Word) :
    pushPc target (s.withUnread w b) = mapNext (·.withUnread w b) (pushPc target s) := by
  unfold pushPc
  change (if s.sp = 16 then _ else _) = _
  split
  · rfl
  · change (if h : s.sp.toNat < 16 then _ else _) = _
    split <;> rfl

theorem popPc_withUnread : popPc (s.withUnread w b) = mapNext (·.withUnread w b) (popPc s) := by
  unfold popPc
  change (if s.sp = 0 then _ else _) = _
  split
  · rfl
  · change (if h : s.sp.toNat - 1 < 16 then _ else _) = _
    split <;> rfl

theorem storeAtI_withUnread (bs : List Byte) :
    storeAtI bs (s.withUnread w b) = mapNext (·.withUnread w b) (storeAtI bs s) := by
  unfold storeAtI
  rw [State.base_withUnread]
  split <;> rfl

theorem State.loadFrom_withUnread (a n : Nat) :
    (s.withUnread w b).loadFrom a n = (s.loadFrom a n).withUnread w b := by
  induction n with
  | zero => rfl
  | succ k ih => simp only [State.loadFrom, ih]; rfl

theorem execLoadRegs_withUnread (x : Reg) :
    execLoadRegs x (s.withUnread w b) = mapNext (·.withUnread w b) (execLoadRegs x s) := by
  unfold execLoadRegs
  rw [State.base_withUnread]
  split
  · exact congrArg _ (State.loadFrom_withUnread w b s s.base (x.val + 1))
  · rfl

theorem drawPixels_withUnread (ps : List Nat) :
    drawPixels ps (s.withUnread w b) = mapNext (·.withUnread w b) (drawPixels ps s) := by
  unfold drawPixels
  split <;> rfl

theorem execDrw_withUnread (x y : Reg) (n : Nat) :
    execDrw x y n (s.withUnread w b) = mapNext (·.withUnread w b) (execDrw x y n s) := by
  unfold execDrw
  rw [State.base_withUnread]
  split
  · exact drawPixels_withUnread w b s _
  · rfl

theorem skipOnKey_withUnread (want : Bool) (x : Reg) :
    skipOnKey want x (s.withUnread w b) = mapNext (·.withUnread w b) (skipOnKey want x s) := by
  unfold skipOnKey
  rw [State.reg_withUnread]
  cases keyNumber (s.reg x) with
  | none => rfl
  | some k => exact skipIf_withUnread w b s _

theorem execWaitKey_withUnread (x : Reg) :
    execWaitKey x (s.withUnread w b) = mapNext (·.withUnread w b) (execWaitKey x s) := by
  unfold execWaitKey
  rw [State.lowestKey_withUnread]
  cases s.lowestKey <;> rfl

/-- Neither `opcode` nor ST makes a difference to an instruction, and both are carried through; only Fx18 replaces
ST. -/
theorem exec_withUnread {i : Instr} (hi : ∀ x, i ≠ .setSt x) :
    exec i (s.withUnread w b) = mapNext (·.withUnread w b) (exec i s) := by
  cases i with
  | ret => exact popPc_withUnread w b s
  | call nnn => exact pushPc_withUnread w b s _
  | seImm | sneImm | seReg | sneReg => exact skipIf_withUnread w b s _
  | skp x => exact skipOnKey_withUnread w b s true x
  | sknp x => exact skipOnKey_withUnread w b s false x
  | waitKey x => exact execWaitKey_withUnread w b s x
  | drw x y n => exact execDrw_withUnread w b s x y n
  | storeBcd | storeRegs => exact storeAtI_withUnread w b s _
  | loadRegs x => exact execLoadRegs_withUnread w b s x
  | setSt x => exact absurd rfl (hi x)
  | cls | jp | jpV0 | ldImm | addImm | ldReg | orReg | andReg | xorReg | addReg | subReg | shr | subnReg | shl | rnd
  | ldI | addI | ldFont | getDt | setDt => rfl

end

/-- Settles O50: an instruction other than Fx18 carries ST through, and Fx18 replaces it. -/
theorem noInstructionReadsTheSoundTimer : Obligations.NoInstructionReadsTheSoundTimer := by
  refine fun i s b => ⟨?_, fun hi t ht => ?_⟩
  · rintro ⟨x, rfl⟩
    rfl
  · have hop : t.opcode = s.opcode := (exec_keeps_key_and_opcode ht).2
    calc exec i { s with st := b } = mapNext (·.withUnread s.opcode b) (exec i s) := exec_withUnread s.opcode b s hi
      _ = .next { t with opcode := s.opcode, st := b } := by rw [ht]; rfl
      _ = .next { t with st := b } := by rw [← hop]

/-- What an instruction does is the same whatever `opcode` holds. -/
theorem exec_withOpcode (w : Word) (h : exec i s = .next t) :
    exec i { s with opcode := w } = .next { t with opcode := w } := by
  by_cases hi : ∃ x, i = .setSt x
  · obtain ⟨x, rfl⟩ := hi
    cases h
    rfl
  · have hst : t.st = s.st := exec_writesOnly i s t h .sound (hi ∘ writable_sound_iff.1)
    calc exec i { s with opcode := w } = mapNext (·.withUnread w s.st) (exec i s) :=
          exec_withUnread w s.st s fun x e => hi ⟨x, e⟩
      _ = .next { t with opcode := w, st := s.st } := by rw [h]; rfl
      _ = .next { t with opcode := w } := by rw [← hst]

theorem step_of_runs (h : Runs s) : step s = execFetched exec s := by
  obtain ⟨hrun, hpc⟩ := h
  have hfetch : s.fetchFaults = false := by simpa [State.fetchFaults] using hpc
  simp [step, cycle, hrun, hfetch]

/-- A STEP that fetches leaves the fetched word in `opcode` (R32). -/
theorem execFetched_opcode (h : execFetched exec s = .next t) : t.opcode = wordAt s := by
  unfold execFetched at h
  split at h
  · cases h
    rfl
  · exact (exec_keeps_key_and_opcode h).2

/-- Settles O49: `exec` carries `opcode` through, and the fetch overwrites it before the execution. -/
theorem opcodeIsNotObservable : Obligations.OpcodeIsNotObservable := by
  refine ⟨fun i s t w h => exec_withOpcode w h, fun s w h => ⟨?_, fun t ht => ?_⟩⟩
  · have hw : Runs { s with opcode := w } := h
    rw [step_of_runs h, step_of_runs hw]
    rfl
  · exact execFetched_opcode ((step_of_runs h).symm.trans ht)

end Sys2Proof.Machine

/-! The statements of `spec/20_memory.md`: what the reads and KEY_WRITE do, what LOAD copies, and that a later fetch
reads the bytes a store has written. -/

namespace Sys2Proof.Machine

open Sys2Proof.Says

variable {s t u : State} {a k : Nat} {bs : List Byte}

/-! ## The keypad and the reads -/

/-- Settles O58: KEY_WRITE is `State.setKey`, whose slots `State.keySlot_setKey` gives; the reads answer by
definition. -/
theorem keyWriteAndTheReads : Obligations.KeyWriteAndTheReads := by
  refine fun font s => ⟨fun k b => ⟨s.setKey k b, rfl, ?_, fun j hj => ?_, rfl⟩, fun _ _ _ => rfl, rfl, rfl⟩
  · exact (s.keySlot_setKey k k b).trans (if_pos rfl)
  · exact (s.keySlot_setKey k j b).trans (if_neg hj.symm)

/-! ## A read inside and outside written bytes -/

theorem State.readByte_writeBytes_inside (s : State) (a : Nat) (hk : k < bs.length) :
    (s.writeBytes a bs).readByte (a + k) = bs[k] := by
  rw [State.readByte_writeBytes, if_pos (by omega), Nat.add_sub_cancel_left, List.getD_eq_getElem _ _ hk]

theorem State.readByte_writeBytes_outside (s : State) {j : Nat} (hj : j < a ∨ a + bs.length ≤ j) :
    (s.writeBytes a bs).readByte j = s.readByte j := by
  rw [State.readByte_writeBytes, if_neg (by omega)]

/-! ## LOAD (R55) -/

theorem load_of_fits (s : State) (h : bs.length ≤ 3584) : load bs s = (s.writeBytes 0x200 bs, .loadOk) :=
  if_neg (show ¬ 3584 < bs.length by omega)

theorem load_of_too_large (s : State) (h : 3584 < bs.length) : load bs s = (s, .loadTooLarge) := if_pos h

/-- Settles O56: an image that fits is written at 0x200, and a read gives its bytes inside and the old byte outside. -/
theorem loadCopiesTheImage : Obligations.LoadCopiesTheImage := by
  refine fun font bytes s => ⟨fun hfits => ?_, fun hlong => congrArg _ (load_of_too_large s hlong)⟩
  exact ⟨s.writeBytes 0x200 bytes, congrArg _ (load_of_fits s hfits),
    fun _ hk => s.readByte_writeBytes_inside 0x200 hk, fun _ ha => s.readByte_writeBytes_outside ha, rfl⟩

/-! ## A fetch after a store (R51) -/

/-- The word a fetch reads depends on PC and on memory only. -/
theorem wordAt_of_mem_eq (h : u.mem = t.mem) :
    wordAt u = t.readByte u.pc.toNat ++ t.readByte (u.pc.toNat + 1) := by
  rw [wordAt, State.readByte_of_mem_eq h, State.readByte_of_mem_eq h]

/-- A fetch inside written bytes reads two of them. -/
theorem wordAt_inside_writeBytes (hmem : u.mem = (s.writeBytes a bs).mem) (hk : k + 1 < bs.length)
    (hpc : u.pc.toNat = a + k) : wordAt u = bs[k] ++ bs[k + 1] := by
  rw [wordAt_of_mem_eq hmem, hpc, Nat.add_assoc, s.readByte_writeBytes_inside a hk,
    s.readByte_writeBytes_inside a (Nat.lt_of_succ_lt hk)]

/-- A fetch one byte before written bytes takes in the first of them. -/
theorem wordAt_before_writeBytes (hmem : u.mem = (s.writeBytes a bs).mem) (hbs : 0 < bs.length)
    (hpc : u.pc.toNat + 1 = a) : wordAt u = s.readByte u.pc.toNat ++ bs[0] := by
  rw [wordAt_of_mem_eq hmem, hpc, s.readByte_writeBytes_outside (by omega)]
  exact congrArg _ (s.readByte_writeBytes_inside a hbs)

/-- A fetch at the last of the written bytes takes in that one only. -/
theorem wordAt_last_of_writeBytes (hmem : u.mem = (s.writeBytes a bs).mem) (hk : k + 1 = bs.length)
    (hpc : u.pc.toNat = a + k) : wordAt u = bs[k] ++ s.readByte (u.pc.toNat + 1) := by
  rw [wordAt_of_mem_eq hmem, s.readByte_writeBytes_outside (j := u.pc.toNat + 1) (by omega), hpc,
    s.readByte_writeBytes_inside a (by omega)]

/-- A store that passes the range check writes its bytes at I. -/
theorem storeAtI_of_fits (hfits : s.i.toNat + bs.length ≤ 0x1000) (h : storeAtI bs s = .next t) :
    t = s.writeBytes s.i.toNat bs := by
  rcases storeAtI_cases bs s with ⟨_, e⟩ | ⟨_, hout, _⟩
  · simpa [e] using h.symm
  · omega

theorem State.getElem_regsUpTo (s : State) {x k : Reg} (hk : k.val < (s.regsUpTo x).length) :
    (s.regsUpTo x)[k.val] = s.reg k := by
  have hkx : k ≤ x := Fin.le_def.2 (by rw [State.regsUpTo_length] at hk; omega)
  rw [← s.regsUpTo_getD x k hkx, List.getD_eq_getElem _ _ hk]

theorem bcdDigits_eq {b hundreds tens ones : Byte} (h : hundreds.toNat = b.toNat / 100)
    (ht : tens.toNat = b.toNat / 10 % 10) (ho : ones.toNat = b.toNat % 10) :
    bcdDigits b = [hundreds, tens, ones] := by
  simp [bcdDigits, ← h, ← ht, ← ho]

/-- Settles O55: each of Fx55, Fx33 and LOAD leaves the memory `State.writeBytes` leaves, and a later fetch reads from
it by the place of PC among the written bytes. -/
theorem fetchSeesEarlierStores : Obligations.FetchSeesEarlierStores := by
  refine ⟨fun x k s t u hi hexec hmem hk hkx hpc => ?_,
    fun x s t u hundreds tens ones hi hexec hmem hh ht ho => ?_,
    fun font bytes s u k hfits ⟨t, hload, hmem⟩ hk hpc => ?_⟩
  · obtain rfl := storeAtI_of_fits (by rw [State.regsUpTo_length]; omega) hexec
    have hlen : k.val + 1 < (s.regsUpTo x).length := by rw [State.regsUpTo_length]; omega
    rw [wordAt_inside_writeBytes hmem hlen hpc, s.getElem_regsUpTo,
      s.getElem_regsUpTo (k := ⟨k.val + 1, hk⟩) hlen]
  · obtain rfl := storeAtI_of_fits (by rw [bcdDigits_length]; omega) hexec
    rw [bcdDigits_eq hh ht ho] at hmem
    exact ⟨wordAt_before_writeBytes hmem (by simp), wordAt_inside_writeBytes (k := 0) hmem (by simp),
      wordAt_inside_writeBytes (k := 1) hmem (by simp), wordAt_last_of_writeBytes (k := 2) hmem rfl⟩
  · have hload' : load bytes s = (t, .loadOk) := Host.Outcome.next.inj hload
    rw [load_of_fits s hfits] at hload'
    obtain ⟨rfl, -⟩ := Prod.mk.inj hload'
    exact wordAt_inside_writeBytes hmem hk hpc

end Sys2Proof.Machine

/-! The decoder against the opcode map (`spec/30_encoding.md` R64 to R68): a word decodes to an instruction exactly when
it selects the instruction's row and the operands are the word's fields. -/

namespace Sys2Proof

open Sys2Proof.Laws

variable {w v : Word} {i : Instr}

/-! ## A word is packed from its fields -/

theorem packXyn_of_fields {f n : BitVec 4} (hf : familyOf w = f) (hn : nOf w = n) :
    packXyn f (xOf w) (yOf w) n = w :=
  BitVec.eq_of_toNat_eq (by rw [← hf, ← hn, packXyn_toNat, ← toNat_eq_fields])

theorem packXkk_of_fields {f : BitVec 4} {kk : Byte} (hf : familyOf w = f) (hk : kkOf w = kk) :
    packXkk f (xOf w) kk = w := by
  apply BitVec.eq_of_toNat_eq
  rw [← hf, ← hk, packXkk_toNat, familyOf_toNat, xOf_val, kkOf_toNat]
  omega

theorem packNnn_of_family {f : BitVec 4} (hf : familyOf w = f) : packNnn f (nnnOf w) = w := by
  apply BitVec.eq_of_toNat_eq
  rw [← hf, packNnn_toNat, familyOf_toNat, nnnOf_toNat]
  omega

/-! ## What each of the map's masks examines -/

theorem and_maskF000 (w : Word) : w &&& 0xF000 = packXyn (familyOf w) 0 0 0 :=
  (congrArg (· &&& 0xF000) (packXyn_of_fields rfl rfl)).symm.trans (EncodesInItsRow.xyn_row _ _ _ _)

theorem and_maskF00F (w : Word) : w &&& 0xF00F = packXyn (familyOf w) 0 0 (nOf w) :=
  (congrArg (· &&& 0xF00F) (packXyn_of_fields rfl rfl)).symm.trans (EncodesInItsRow.low_nibble_row _ _ _ _)

theorem and_maskF0FF (w : Word) : w &&& 0xF0FF = packXkk (familyOf w) 0 (kkOf w) :=
  (congrArg (· &&& 0xF0FF) (packXkk_of_fields rfl rfl)).symm.trans (EncodesInItsRow.low_byte_row _ _ _)

theorem packXyn_and_mask (f : BitVec 4) (x y : Reg) (n m : BitVec 4) :
    packXyn f x y n &&& packXyn 0xF 15 15 m = packXyn f x y (n &&& m) := by
  have hreg : ∀ z : Reg, regField z &&& regField 15 = regField z := fun _ => BitVec.and_allOnes
  have hf : f &&& 0xF = f := BitVec.and_allOnes
  refine BitVec.and_append.trans ?_
  rw [BitVec.and_append, BitVec.and_append, hf, hreg, hreg]
  rfl

theorem and_maskFFF0 (w : Word) : w &&& 0xFFF0 = packXyn (familyOf w) (xOf w) (yOf w) 0 := by
  have h := packXyn_and_mask (familyOf w) (xOf w) (yOf w) (nOf w) 0
  rw [packXyn_of_fields rfl rfl, show nOf w &&& 0 = 0 from BitVec.and_zero] at h
  exact h

/-! `v` is a row's value: it has no bit outside the row's mask. -/

theorem selectedBy_maskF000_iff (hv : v &&& 0xF000 = v) :
    Row.selectedBy ⟨0xF000, v⟩ w = true ↔ familyOf w = familyOf v := by
  rw [Row.selectedBy, beq_iff_eq]
  refine ⟨family_of_maskF000, fun h => ?_⟩
  rw [and_maskF000, h, ← and_maskF000, hv]

theorem selectedBy_maskF00F_iff (hv : v &&& 0xF00F = v) :
    Row.selectedBy ⟨0xF00F, v⟩ w = true ↔ familyOf w = familyOf v ∧ nOf w = nOf v := by
  rw [Row.selectedBy, beq_iff_eq]
  refine ⟨fields_of_maskF00F, fun ⟨hf, hn⟩ => ?_⟩
  rw [and_maskF00F, hf, hn, ← and_maskF00F, hv]

theorem selectedBy_maskF0FF_iff (hv : v &&& 0xF0FF = v) :
    Row.selectedBy ⟨0xF0FF, v⟩ w = true ↔ familyOf w = familyOf v ∧ kkOf w = kkOf v := by
  rw [Row.selectedBy, beq_iff_eq]
  refine ⟨fields_of_maskF0FF, fun ⟨hf, hk⟩ => ?_⟩
  rw [and_maskF0FF, hf, hk, ← and_maskF0FF, hv]

/-! ## The two levels of the decoder (R64, R65) -/

theorem decode_of_family0 (h : familyOf w = 0x0) : decode w = decode0 w := by rw [decode, h]; rfl

theorem decode_of_family8 (h : familyOf w = 0x8) : decode w = decode8 w := by rw [decode, h]; rfl

theorem decode_of_familyE (h : familyOf w = 0xE) : decode w = decodeE w := by rw [decode, h]; rfl

theorem decode_of_familyF (h : familyOf w = 0xF) : decode w = decodeF w := by rw [decode, h]; rfl

/-- An instruction with its operands replaced by the fields of a word (R63). -/
def Instr.withFields (i : Instr) (w : Word) : Instr :=
  match i with
  | .cls => .cls
  | .ret => .ret
  | .jp _ => .jp (nnnOf w)
  | .call _ => .call (nnnOf w)
  | .seImm _ _ => .seImm (xOf w) (kkOf w)
  | .sneImm _ _ => .sneImm (xOf w) (kkOf w)
  | .seReg _ _ => .seReg (xOf w) (yOf w)
  | .ldImm _ _ => .ldImm (xOf w) (kkOf w)
  | .addImm _ _ => .addImm (xOf w) (kkOf w)
  | .ldReg _ _ => .ldReg (xOf w) (yOf w)
  | .orReg _ _ => .orReg (xOf w) (yOf w)
  | .andReg _ _ => .andReg (xOf w) (yOf w)
  | .xorReg _ _ => .xorReg (xOf w) (yOf w)
  | .addReg _ _ => .addReg (xOf w) (yOf w)
  | .subReg _ _ => .subReg (xOf w) (yOf w)
  | .shr _ _ => .shr (xOf w) (yOf w)
  | .subnReg _ _ => .subnReg (xOf w) (yOf w)
  | .shl _ _ => .shl (xOf w) (yOf w)
  | .sneReg _ _ => .sneReg (xOf w) (yOf w)
  | .ldI _ => .ldI (nnnOf w)
  | .jpV0 _ => .jpV0 (nnnOf w)
  | .rnd _ _ => .rnd (xOf w) (kkOf w)
  | .drw _ _ _ => .drw (xOf w) (yOf w) (nOf w).toNat
  | .skp _ => .skp (xOf w)
  | .sknp _ => .sknp (xOf w)
  | .getDt _ => .getDt (xOf w)
  | .waitKey _ => .waitKey (xOf w)
  | .setDt _ => .setDt (xOf w)
  | .setSt _ => .setSt (xOf w)
  | .addI _ => .addI (xOf w)
  | .ldFont _ => .ldFont (xOf w)
  | .storeBcd _ => .storeBcd (xOf w)
  | .storeRegs _ => .storeRegs (xOf w)
  | .loadRegs _ => .loadRegs (xOf w)

theorem Instr.row_withFields (i : Instr) (w : Word) : (i.withFields w).row = i.row := by cases i <;> rfl

/-- The word selects the instruction's row, and the operands are its fields. -/
def Instr.ReadFrom (i : Instr) (w : Word) : Prop := i.row.selectedBy w = true ∧ i.withFields w = i

theorem readFrom_of_decode0 (hf : familyOf w = 0x0) (h : decode0 w = .ok i) : i.ReadFrom w := by
  unfold decode0 at h
  split at h <;> cases h <;>
    exact ⟨(selectedBy_maskF0FF_iff (by decide)).2 ⟨hf, BitVec.eq_of_toNat_eq (by assumption)⟩, rfl⟩

theorem readFrom_of_decode8 (hf : familyOf w = 0x8) (h : decode8 w = .ok i) : i.ReadFrom w := by
  unfold decode8 at h
  split at h <;> cases h <;>
    exact ⟨(selectedBy_maskF00F_iff (by decide)).2 ⟨hf, BitVec.eq_of_toNat_eq (by assumption)⟩, rfl⟩

theorem readFrom_of_decodeE (hf : familyOf w = 0xE) (h : decodeE w = .ok i) : i.ReadFrom w := by
  unfold decodeE at h
  split at h <;> cases h <;>
    exact ⟨(selectedBy_maskF0FF_iff (by decide)).2 ⟨hf, BitVec.eq_of_toNat_eq (by assumption)⟩, rfl⟩

theorem readFrom_of_decodeF (hf : familyOf w = 0xF) (h : decodeF w = .ok i) : i.ReadFrom w := by
  unfold decodeF at h
  split at h <;> cases h <;>
    exact ⟨(selectedBy_maskF0FF_iff (by decide)).2 ⟨hf, BitVec.eq_of_toNat_eq (by assumption)⟩, rfl⟩

/-- The decoder answers only instructions whose row the word selects. -/
theorem readFrom_of_decode (h : decode w = .ok i) : i.ReadFrom w := by
  unfold decode at h
  split at h
  case h_1 hf => exact readFrom_of_decode0 (BitVec.eq_of_toNat_eq hf) h
  case h_9 hf => exact readFrom_of_decode8 (BitVec.eq_of_toNat_eq hf) h
  case h_15 hf => exact readFrom_of_decodeE (BitVec.eq_of_toNat_eq hf) h
  case h_16 =>
    have hlt := (familyOf w).isLt
    have hf : (familyOf w).toNat = 15 := by grind
    exact readFrom_of_decodeF (BitVec.eq_of_toNat_eq hf) h
  all_goals
    cases h
    exact ⟨(selectedBy_maskF000_iff (by decide)).2 (BitVec.eq_of_toNat_eq (by assumption)), rfl⟩

/-- The decoder answers the instruction of every row the word selects. -/
theorem decode_of_selectedBy (h : i.row.selectedBy w = true) : decode w = .ok (i.withFields w) := by
  cases i with
  | jp | call | seImm | sneImm | seReg | ldImm | addImm | sneReg | ldI | jpV0 | rnd | drw =>
    rw [decode, (selectedBy_maskF000_iff (by decide)).1 h]
    rfl
  | ldReg | orReg | andReg | xorReg | addReg | subReg | shr | subnReg | shl =>
    obtain ⟨hf, hn⟩ := (selectedBy_maskF00F_iff (by decide)).1 h
    rw [decode_of_family8 hf, decode8, hn]
    rfl
  | cls | ret =>
    obtain ⟨hf, hk⟩ := (selectedBy_maskF0FF_iff (by decide)).1 h
    rw [decode_of_family0 hf, decode0, hk]
    rfl
  | skp | sknp =>
    obtain ⟨hf, hk⟩ := (selectedBy_maskF0FF_iff (by decide)).1 h
    rw [decode_of_familyE hf, decodeE, hk]
    rfl
  | getDt | waitKey | setDt | setSt | addI | ldFont | storeBcd | storeRegs | loadRegs =>
    obtain ⟨hf, hk⟩ := (selectedBy_maskF0FF_iff (by decide)).1 h
    rw [decode_of_familyF hf, decodeF, hk]
    rfl

/-- The decoder is the opcode map. -/
theorem decode_eq_ok_iff : decode w = .ok i ↔ i.ReadFrom w := by
  refine ⟨readFrom_of_decode, fun ⟨hrow, hops⟩ => ?_⟩
  rw [decode_of_selectedBy hrow, hops]

/-! ## The encoder -/

/-- The bits of a word that an instruction's row examines or that hold an operand (R63, R68). -/
def Instr.usedBits : Instr → Word
  | .cls | .ret => 0xF0FF
  | .seReg _ _ | .sneReg _ _ => 0xFFF0
  | _ => 0xFFFF

theorem and_maskFFFF (w : Word) : w &&& 0xFFFF = w := BitVec.and_allOnes

/-- The encoder writes a word's instruction as the word with its unused bits cleared (log 9). -/
theorem encode_withFields (h : i.row.selectedBy w = true) : encode (i.withFields w) = w &&& i.usedBits := by
  cases i with
  | cls | ret => exact (beq_iff_eq.1 h).symm
  | seReg | sneReg =>
    have hf := (selectedBy_maskF000_iff (by decide)).1 h
    refine Eq.trans ?_ (and_maskFFF0 w).symm
    rw [hf]
    rfl
  | jp | call | ldI | jpV0 =>
    have hf := (selectedBy_maskF000_iff (by decide)).1 h
    exact (packNnn_of_family hf).trans (and_maskFFFF w).symm
  | seImm | sneImm | ldImm | addImm | rnd =>
    have hf := (selectedBy_maskF000_iff (by decide)).1 h
    exact (packXkk_of_fields hf rfl).trans (and_maskFFFF w).symm
  | drw =>
    have hf := (selectedBy_maskF000_iff (by decide)).1 h
    have hn : nOf w = BitVec.ofNat 4 (nOf w).toNat := by simp
    exact (packXyn_of_fields hf hn).trans (and_maskFFFF w).symm
  | ldReg | orReg | andReg | xorReg | addReg | subReg | shr | subnReg | shl =>
    obtain ⟨hf, hn⟩ := (selectedBy_maskF00F_iff (by decide)).1 h
    exact (packXyn_of_fields hf hn).trans (and_maskFFFF w).symm
  | skp | sknp | getDt | waitKey | setDt | setSt | addI | ldFont | storeBcd | storeRegs | loadRegs =>
    obtain ⟨hf, hk⟩ := (selectedBy_maskF0FF_iff (by decide)).1 h
    exact (packXkk_of_fields hf hk).trans (and_maskFFFF w).symm

theorem selectedBy_encode (i : Instr) : i.row.selectedBy (encode i) = true := by
  refine beq_iff_eq.2 ?_
  cases i with
  | jp | call | ldI | jpV0 => exact EncodesInItsRow.nnn_row _ _
  | seImm | sneImm | ldImm | addImm | rnd => exact EncodesInItsRow.xkk_row _ _ _
  | seReg | sneReg | drw => exact EncodesInItsRow.xyn_row _ _ _ _
  | ldReg | orReg | andReg | xorReg | addReg | subReg | shr | subnReg | shl =>
    exact EncodesInItsRow.low_nibble_row _ _ _ _
  | cls | ret | skp | sknp | getDt | waitKey | setDt | setSt | addI | ldFont | storeBcd | storeRegs | loadRegs =>
    exact EncodesInItsRow.low_byte_row _ _ _

theorem withFields_encode (hwf : i.wf = true) : i.withFields (encode i) = i := by
  cases i with
  | drw x y n =>
    have hn : n < 16 := Nat.lt_succ_of_le (of_decide_eq_true hwf)
    simp [Instr.withFields, encode, Nat.mod_eq_of_lt hn]
  | _ => simp [Instr.withFields, encode]

theorem wordOfBytes_halves (w : Word) : wordOfBytes (w.extractLsb' 8 8) (w.extractLsb' 0 8) = w := by
  apply BitVec.eq_of_toNat_eq
  rw [wordOfBytes, toNat_append_nat]
  simp only [BitVec.extractLsb'_toNat, Nat.shiftRight_eq_div_pow]
  omega

theorem decodeBytes_bytesOfWord (w : Word) (rest : List Byte) :
    decodeBytes (bytesOfWord w ++ rest) = (decode w).map (·, rest) := by
  change (decode (wordOfBytes _ _)).map _ = _
  rw [wordOfBytes_halves]
  rfl

/-- Settles O32: an instruction's word selects its row, and the fields of the word are the operands. -/
theorem decodeOfEncodeIsTheInstruction : Obligations.DecodeOfEncodeIsTheInstruction := by
  intro i hwf
  have hdec : decode (encode i) = .ok i := decode_eq_ok_iff.2 ⟨selectedBy_encode i, withFields_encode hwf⟩
  exact ⟨hdec, fun rest => by rw [decodeBytes_bytesOfWord, hdec]; rfl⟩

theorem Instr.wf_withFields (i : Instr) (w : Word) : (i.withFields w).wf = true := by
  cases i with
  | drw => exact decide_eq_true (Nat.le_of_lt_succ (nOf w).isLt)
  | _ => rfl

/-- Settles O33: the instruction is read from the word, and `encode_withFields` says what the encoder makes of that. -/
theorem encodeOfDecodeIsTheWord : Obligations.EncodeOfDecodeIsTheWord := by
  intro w i h
  obtain ⟨hrow, hops⟩ := readFrom_of_decode h
  have henc := encode_withFields hrow
  rw [hops] at henc
  refine ⟨hops ▸ i.wf_withFields w, henc.trans ?_⟩
  cases i with
  | cls | ret | seReg | sneReg => rfl
  | _ => exact and_maskFFFF w

/-! ## The opcode map (R66) -/

/-- The map's rows are those of the instructions. -/
theorem mem_opcodeMap_iff {r : Row} : r ∈ opcodeMap ↔ ∃ i : Instr, i.row = r := by
  constructor
  · simp only [opcodeMap, List.mem_append, List.mem_map]
    rintro ((⟨i, -, h⟩ | ⟨i, -, h⟩) | ⟨i, -, h⟩) <;> exact ⟨i, h⟩
  · rintro ⟨i, rfl⟩
    cases i <;> exact of_decide_eq_true rfl

/-- Settles O30: a word decodes to the instruction of any row it selects, so two selected rows are one. -/
theorem opcodeMapIsUnambiguous : Obligations.OpcodeMapIsUnambiguous := by
  refine ⟨rfl, by decide, fun w i h => ?_, fun w r hr hsel => ?_⟩
  · have hrow : i.row.selectedBy w = true := (readFrom_of_decode h).1
    refine ⟨mem_opcodeMap_iff.2 ⟨i, rfl⟩, hrow, fun r hr hsel => ?_⟩
    obtain ⟨j, rfl⟩ := mem_opcodeMap_iff.1 hr
    have hji : j.withFields w = i := Except.ok.inj ((decode_of_selectedBy hsel).symm.trans h)
    rw [← hji, j.row_withFields]
  · obtain ⟨i, rfl⟩ := mem_opcodeMap_iff.1 hr
    exact ⟨_, decode_of_selectedBy hsel, i.row_withFields w⟩

/-- The mask FFF0 keeps the family, x and y. -/
theorem fields_of_maskFFF0 (h : w &&& 0xFFF0 = v &&& 0xFFF0) :
    familyOf w = familyOf v ∧ xOf w = xOf v ∧ yOf w = yOf v := by
  have hmask : ∀ lo, (0xFFF0 : Word).extractLsb' lo 4 = BitVec.allOnes 4 →
      w.extractLsb' lo 4 = v.extractLsb' lo 4 := fun lo hm =>
    (extract_of_mask hm h).trans (extract_of_mask hm rfl).symm
  exact ⟨hmask 12 (by decide), congrArg BitVec.toFin (hmask 8 (by decide)),
    congrArg BitVec.toFin (hmask 4 (by decide))⟩

theorem selectedBy_of_and_mask_eq {r : Row} (hmask : w &&& r.mask = v &&& r.mask) (h : r.selectedBy w = true) :
    r.selectedBy v = true := beq_iff_eq.2 (hmask.symm.trans (beq_iff_eq.1 h))

/-- Settles O31: the decoder looks at the masked bits only, and the shifts' meanings do not mention `y`. -/
theorem unexaminedBitsMakeNoDifference : Obligations.UnexaminedBitsMakeNoDifference := by
  refine ⟨fun w w' hfam hmask => ?_, fun w w' hdec hmask => ?_, fun x y y' s => ⟨rfl, rfl⟩⟩
  · obtain ⟨hf, hx, hy⟩ := fields_of_maskFFF0 hmask.symm
    rcases hfam with h | h <;> rw [decode, decode, hf, hx, hy, h] <;> rfl
  · rcases hdec with h | h
    · exact h ▸ decode_of_selectedBy (i := .cls) (selectedBy_of_and_mask_eq hmask (readFrom_of_decode h).1)
    · exact h ▸ decode_of_selectedBy (i := .ret) (selectedBy_of_and_mask_eq hmask (readFrom_of_decode h).1)

/-! ## The words that match no row (R67)

`keySpace` and `validKeys` say of each family which low bits select a row and at which values they do. -/

/-- How many values the second-level key of a family has (R65); 1 where the family alone selects the row. -/
def keySpace : Nat → Nat
  | 0x0 | 0xE | 0xF => 256
  | 0x8 => 16
  | _ => 1

/-- The second-level keys of a family that select a row (R66). -/
def validKeys : Nat → List Nat
  | 0x0 => [0xE0, 0xEE]
  | 0x8 => [0x0, 0x1, 0x2, 0x3, 0x4, 0x5, 0x6, 0x7, 0xE]
  | 0xE => [0x9E, 0xA1]
  | 0xF => [0x07, 0x0A, 0x15, 0x18, 0x1E, 0x29, 0x33, 0x55, 0x65]
  | _ => [0]

theorem isOk_eq_false_iff {r : Except DecodeError Instr} : r.isOk = false ↔ ∀ i, r ≠ .ok i := by
  cases r <;> simp [Except.isOk, Except.toBool]

theorem decode0_isOk (w : Word) : (decode0 w).isOk = decide (w.toNat % 256 ∈ validKeys 0x0) := by
  unfold decode0
  rw [kkOf_toNat]
  split <;> simp_all [validKeys, Except.isOk, Except.toBool]

theorem decode8_isOk (w : Word) : (decode8 w).isOk = decide (w.toNat % 16 ∈ validKeys 0x8) := by
  unfold decode8
  rw [nOf_toNat]
  split <;> simp_all [validKeys, Except.isOk, Except.toBool]

theorem decodeE_isOk (w : Word) : (decodeE w).isOk = decide (w.toNat % 256 ∈ validKeys 0xE) := by
  unfold decodeE
  rw [kkOf_toNat]
  split <;> simp_all [validKeys, Except.isOk, Except.toBool]

theorem decodeF_isOk (w : Word) : (decodeF w).isOk = decide (w.toNat % 256 ∈ validKeys 0xF) := by
  unfold decodeF
  rw [kkOf_toNat]
  split <;> simp_all [validKeys, Except.isOk, Except.toBool]

/-- A word decodes exactly when its key is one of its family's. -/
theorem decode_isOk (w : Word) :
    (decode w).isOk = decide (w.toNat % keySpace (familyOf w).toNat ∈ validKeys (familyOf w).toNat) := by
  unfold decode
  split
  case h_1 hf => exact hf ▸ decode0_isOk w
  case h_9 hf => exact hf ▸ decode8_isOk w
  case h_15 hf => exact hf ▸ decodeE_isOk w
  case h_16 =>
    have hlt := (familyOf w).isLt
    have hf : (familyOf w).toNat = 15 := by grind
    exact hf ▸ decodeF_isOk w
  all_goals
    rename_i hf
    simp [hf, keySpace, validKeys, Nat.mod_one, Except.isOk, Except.toBool]

theorem decode_fails_iff (w : Word) :
    (∀ i, decode w ≠ .ok i) ↔ w.toNat % keySpace (familyOf w).toNat ∉ validKeys (familyOf w).toNat := by
  rw [← isOk_eq_false_iff, decode_isOk, decide_eq_false_iff_not]

/-- Settles O34: the decoder evaluated on eight words; 0x23 is no key of family 0. -/
theorem sampleWordsDecode : Obligations.SampleWordsDecode :=
  ⟨rfl, rfl, rfl, rfl, rfl, rfl, rfl, rfl, (decode_fails_iff 0x0123).2 (by decide)⟩

/-! How many words of a family fail (R67). -/

/-- A property of residues holds `k` times as often below `k * m` as below `m`. -/
theorem countP_range_mod (q : Nat → Bool) (k m : Nat) :
    (List.range (k * m)).countP (fun n => q (n % m)) = k * (List.range m).countP q := by
  induction k with
  | zero => simp
  | succ k ih =>
    have hblock : (List.range m).countP ((fun n => q (n % m)) ∘ (k * m + ·)) = (List.range m).countP q :=
      List.countP_congr fun j hj => by simp [Nat.mod_eq_of_lt (List.mem_range.1 hj)]
    rw [Nat.succ_mul, List.range_add, List.countP_append, List.countP_map, ih, hblock, Nat.succ_mul]

theorem countP_range_not_mem {keys : List Nat} {m : Nat} (hnodup : keys.Nodup) (hlt : ∀ k ∈ keys, k < m) :
    (List.range m).countP (fun k => !decide (k ∈ keys)) = m - keys.length := by
  have hperm : ((List.range m).filter (· ∈ keys)).Perm keys :=
    (List.perm_ext_iff_of_nodup (List.nodup_range.filter _) hnodup).2 fun k => by simpa using hlt k
  have hlen : m = keys.length + (List.range m).countP (fun k => !decide (k ∈ keys)) := by
    simpa [List.countP_eq_length_filter, hperm.length_eq] using
      List.length_eq_countP_add_countP (· ∈ keys) (l := List.range m)
  omega

/-- Each key outside `validKeys` is the key of `4096 / keySpace f` words of the family. -/
theorem countP_decode_fails (f : Fin 16) :
    (List.range 4096).countP (fun n => !(decode (BitVec.ofNat 16 (f.val * 4096 + n))).isOk) =
      4096 / keySpace f * (keySpace f - (validKeys f).length) := by
  obtain ⟨hspace, hnodup, hlt⟩ :
      4096 / keySpace f * keySpace f = 4096 ∧ (validKeys f).Nodup ∧ ∀ k ∈ validKeys f, k < keySpace f := by
    revert f
    decide
  rw [← countP_range_not_mem hnodup hlt, ← countP_range_mod, hspace]
  refine List.countP_congr fun n hn => ?_
  have hn := List.mem_range.1 hn
  have hw : (BitVec.ofNat 16 (f.val * 4096 + n)).toNat = f.val * 4096 + n := by
    rw [BitVec.toNat_ofNat]
    omega
  have hf : (f.val * 4096 + n) / 4096 = f.val := by omega
  have hkey : (f.val * 4096 + n) % keySpace f = n % keySpace f := by
    have hdvd : keySpace f ∣ f.val * 4096 := (Dvd.intro_left _ hspace).mul_left _
    exact (Nat.ModEq.add_right n (Nat.modEq_zero_iff_dvd.2 hdvd)).trans (by rw [Nat.zero_add])
  rw [decode_isOk, familyOf_toNat, hw, hf, hkey]

end Sys2Proof

/-! The STEP cycle (`spec/30_encoding.md` R61, R62, R67, R72): what a step does in each of its cases, what STEP(rnd)
does with it, and that only RND uses the random byte. -/

namespace Sys2Proof.Machine

open Sys2Proof.Says

variable {s t : State} {i : Instr}

/-! ## One step, case by case -/

theorem step_of_halted (h : s.halted = true) : step s = .next s := if_pos h

theorem step_of_fetch_past_end (hrun : s.halted = false) (hpc : 0xFFE < s.pc.toNat) :
    step s = .next { s with halted := true, faultCause := .fetchRange, faultPc := s.pc } := by
  simp [step, cycle, State.fetchFaults, State.enterFault, hrun, hpc]

theorem step_of_invalid_word (hruns : Runs s) (h : ∀ i, decode (wordAt s) ≠ .ok i) :
    FaultsWith s .invalidOpcode := by
  rw [FaultsWith, step_of_runs hruns, execFetched]
  cases hd : decode s.fetchWord with
  | error e => exact raise_fetched .invalidOpcode s
  | ok i => exact absurd hd (h i)

theorem step_of_fetches (h : Fetches s i) : step s = exec i { s with opcode := wordAt s, pc := s.pc + 2 } := by
  obtain ⟨hruns, hd⟩ := h
  have hd : decode s.fetchWord = .ok i := hd
  rw [step_of_runs hruns, execFetched, hd]
  rfl

/-- Settles O26: `step_of_fetches`; PC is at most 0xFFE, so its advance is exact. -/
theorem stepRunsTheDecodedInstruction : Obligations.StepRunsTheDecodedInstruction := by
  refine fun s i h => ⟨step_of_fetches h, ?_⟩
  have hpc : s.pc.toNat ≤ 0xFFE := h.1.2
  bv_omega

/-- Settles O27: `step_of_fetch_past_end`. -/
theorem fetchPastTheEndFaults : Obligations.FetchPastTheEndFaults := fun _ => step_of_fetch_past_end

/-- Settles O29: the four sets are the keys outside `validKeys`, family by family, and each family has as many invalid
words as there are such keys, times the words of one key. -/
theorem invalidWords : Obligations.InvalidWords := by
  refine ⟨fun w => ?_, fun f => (countP_decode_fails f).trans ?_, rfl, fun s => step_of_invalid_word⟩
  · have hlt := (familyOf w).isLt
    rw [decode_fails_iff]
    simp only [ne_eq, ← BitVec.toNat_inj, kkOf_toNat, nOf_toNat]
    generalize (familyOf w).toNat = f at hlt ⊢
    interval_cases f
    pick_goal 9 -- family 8, whose invalid keys R67 lists
    · simp only [keySpace, validKeys, List.mem_cons, List.not_mem_nil, BitVec.ofNat_eq_ofNat, BitVec.toNat_ofNat,
        true_and, or_false]
      omega
    all_goals simp [keySpace, validKeys, Nat.mod_one]
  · revert f
    decide

/-! ## The operation STEP(rnd) (R72) -/

/-- The random input replaced. -/
def State.withRndIn (s : State) (r : Option Byte) : State := { s with rndIn := r }

theorem State.withRndIn_of_eq {r : Option Byte} (h : s.rndIn = r) : s.withRndIn r = s := by
  cases h
  rfl

theorem stepWith_eq (rnd : Byte) (s : State) :
    stepWith rnd s = mapNext (·.withRndIn none) (step (s.withRndIn (some rnd))) := by
  rw [stepWith]
  change (match step (s.withRndIn (some rnd)) with | .next t => _ | .fault f => _ | .refused r => _) = _
  cases step (s.withRndIn (some rnd)) <;> rfl

/-- A STEP(rnd) ends in `t` and answers what `t`'s halt record says. -/
theorem perform_step_of_next {rnd : Byte} (font : Font) (h : step (s.withRndIn (some rnd)) = .next t) :
    perform font (.step rnd) s = .next (t.withRndIn none, stepReply t) := by
  have hs : stepWith rnd s = .next (t.withRndIn none) := by rw [stepWith_eq, h]; rfl
  rw [perform, hs]
  rfl

/-- An instruction that halts the core has raised a fault, and wrote nothing. -/
theorem exec_eq_raise_of_halts (hrun : s.halted = false) (h : exec i s = .next t) (ht : t.halted = true) :
    t = s.enterFault t.faultCause s.pc0 := by
  rcases exec_outcome i s with ⟨c, _, _, _, e⟩ | ⟨u, e, hu, _⟩ | ⟨_, _, e⟩
  · obtain rfl : s.enterFault c s.pc0 = t := by simpa [e, raise] using h
    rfl
  · obtain rfl : u = t := by simpa [e] using h
    simp [hu, hrun] at ht
  · simp [e] at h

/-- Settles O28: each case is the same case of `step` on the state that holds `rnd`, and dropping `rnd` again gives back
a state whose `rndIn` was none before. -/
theorem stepOperationFollowsTheCycle : Obligations.StepOperationFollowsTheCycle := by
  intro font rnd s hr
  have hfetched : ∀ {i t}, Fetches s i →
      exec i { s with opcode := wordAt s, pc := s.pc + 2, rndIn := some rnd } = .next t →
      perform font (.step rnd) s = .next (t.withRndIn none, stepReply t) := fun hi ht =>
    perform_step_of_next font ((step_of_fetches (s := s.withRndIn (some rnd)) hi).trans ht)
  refine ⟨fun h => ?_, fun hrun hpc => ?_, fun hruns hinv => ?_, fun i t hi ht => hfetched hi ht,
    fun i t hi ht hhalt => ?_⟩
  · rw [perform_step_of_next font (step_of_halted (s := s.withRndIn (some rnd)) h)]
    exact congrArg Host.Outcome.next (Prod.ext (s.withRndIn_of_eq hr) (if_pos h))
  · rw [perform_step_of_next font (step_of_fetch_past_end (s := s.withRndIn (some rnd)) hrun hpc)]
    simp [State.withRndIn, ← hr, stepReply]
  · rw [perform_step_of_next font (step_of_invalid_word (s := s.withRndIn (some rnd)) hruns hinv)]
    simp [State.withRndIn, ← hr, stepReply]
    rfl
  · rw [hfetched hi ht, exec_eq_raise_of_halts
      (s := { s with opcode := wordAt s, pc := s.pc + 2, rndIn := some rnd }) hi.1.1 ht hhalt]
    simp [State.withRndIn, State.enterFault, State.pc0, stepReply, hr]

/-! ## What the random input can reach (R72, R101) -/

section
variable (r : Option Byte) (s : State)

theorem skipIf_withRndIn (c : Bool) : skipIf c (s.withRndIn r) = mapNext (·.withRndIn r) (skipIf c s) := by
  cases c <;> rfl

theorem pushPc_withRndIn (target : Word) :
    pushPc target (s.withRndIn r) = mapNext (·.withRndIn r) (pushPc target s) := by
  unfold pushPc
  rw [apply_ite (mapNext _), apply_dite (mapNext _)]
  rfl

theorem popPc_withRndIn : popPc (s.withRndIn r) = mapNext (·.withRndIn r) (popPc s) := by
  unfold popPc
  rw [apply_ite (mapNext _), apply_dite (mapNext _)]
  rfl

theorem storeAtI_withRndIn (bs : List Byte) :
    storeAtI bs (s.withRndIn r) = mapNext (·.withRndIn r) (storeAtI bs s) := by
  unfold storeAtI
  rw [apply_ite (mapNext _)]
  rfl

theorem State.loadFrom_withRndIn (a n : Nat) :
    (s.withRndIn r).loadFrom a n = (s.loadFrom a n).withRndIn r := by
  induction n with
  | zero => rfl
  | succ k ih =>
    rw [State.loadFrom, ih]
    rfl

theorem execLoadRegs_withRndIn (x : Reg) :
    execLoadRegs x (s.withRndIn r) = mapNext (·.withRndIn r) (execLoadRegs x s) := by
  unfold execLoadRegs
  rw [apply_ite (mapNext _), State.loadFrom_withRndIn]
  rfl

theorem execDrw_withRndIn (x y : Reg) (n : Nat) :
    execDrw x y n (s.withRndIn r) = mapNext (·.withRndIn r) (execDrw x y n s) := by
  unfold execDrw drawPixels
  rw [apply_ite (mapNext _), apply_ite (mapNext _)]
  rfl

theorem skipOnKey_withRndIn (want : Bool) (x : Reg) :
    skipOnKey want x (s.withRndIn r) = mapNext (·.withRndIn r) (skipOnKey want x s) := by
  unfold skipOnKey
  change (match keyNumber (s.reg x) with | none => _ | some k => _) = _
  cases keyNumber (s.reg x) with
  | none => rfl
  | some k => exact skipIf_withRndIn r s _

theorem execWaitKey_withRndIn (x : Reg) :
    execWaitKey x (s.withRndIn r) = mapNext (·.withRndIn r) (execWaitKey x s) := by
  unfold execWaitKey
  change (match s.lowestKey with | none => _ | some k => _) = _
  cases s.lowestKey <;> rfl

/-- Only RND reads the random input or takes it; the others carry it through. -/
theorem exec_withRndIn {i : Instr} (hi : ∀ x kk, i ≠ .rnd x kk) :
    exec i (s.withRndIn r) = mapNext (·.withRndIn r) (exec i s) := by
  cases i with
  | ret => exact popPc_withRndIn r s
  | call => exact pushPc_withRndIn r s _
  | seImm | sneImm | seReg | sneReg => exact skipIf_withRndIn r s _
  | skp | sknp => exact skipOnKey_withRndIn r s _ _
  | waitKey x => exact execWaitKey_withRndIn r s x
  | drw x y n => exact execDrw_withRndIn r s x y n
  | storeBcd | storeRegs => exact storeAtI_withRndIn r s _
  | loadRegs x => exact execLoadRegs_withRndIn r s x
  | rnd x kk => exact absurd rfl (hi x kk)
  | cls | jp | jpV0 | ldImm | addImm | ldReg | orReg | andReg | xorReg | addReg | subReg | shr | subnReg | shl | ldI
  | addI | ldFont | getDt | setDt | setSt => rfl

theorem step_withRndIn (h : ∀ x kk, decode (wordAt s) ≠ .ok (.rnd x kk)) :
    step (s.withRndIn r) = mapNext (·.withRndIn r) (step s) := by
  have hexec : execFetched exec (s.withRndIn r) = mapNext (·.withRndIn r) (execFetched exec s) := by
    unfold execFetched
    change (match decode s.fetchWord with | .error _ => _ | .ok i => _) = _
    cases hd : decode s.fetchWord with
    | error e => rfl
    | ok i =>
      have hi : ∀ x kk, i ≠ .rnd x kk := fun x kk hi => h x kk (hi ▸ hd)
      exact exec_withRndIn r s.fetched hi
  unfold step cycle
  rw [apply_ite (mapNext _), apply_ite (mapNext _), ← hexec]
  rfl

end

theorem mapNext_mapNext (f g : State → State) (o : Result) : mapNext f (mapNext g o) = mapNext (f ∘ g) o := by
  cases o <;> rfl

/-- Settles O51: STEP(rnd) of such a word is `step` without an input, the input then dropped. -/
theorem onlyRndUsesTheRandomByte : Obligations.OnlyRndUsesTheRandomByte := by
  intro s r r' h
  have hstep : ∀ b, stepWith b s = mapNext (·.withRndIn none) (step s) := fun b => by
    rw [stepWith_eq, step_withRndIn _ s h, mapNext_mapNext]
    rfl
  rw [hstep r, hstep r']

end Sys2Proof.Machine

/-! Control flow (`spec/40_control_flow.md` R80 to R88): the encodings and the meanings of jumps, call, return and
skips, and that besides these only the key wait moves PC. -/

namespace Sys2Proof.Machine

open Sys2Proof.Says

variable {s t : State} {i : Instr}

/-! ## Encodings and faults -/

/-- A word that an instruction's row selects decodes to that instruction, the operands read from the word. -/
theorem encodes_row (i : Instr) : Encodes i.row.mask i.row.value i.withFields :=
  fun _ h => decode_of_selectedBy (beq_iff_eq.2 h)

theorem faultsWith_of_exec_raises {c : FaultCause} (h : Fetches s i) (hraise : exec i s.fetched = raise c s.fetched) :
    FaultsWith s c :=
  (step_of_fetches h).trans (hraise.trans (raise_fetched c s))

/-! ## RET and CALL (R80, R82) -/

theorem addressWord_toNat (nnn : BitVec 12) : (addressWord nnn).toNat = nnn.toNat :=
  BitVec.toNat_setWidth_of_le (by decide)

theorem addressWord_eq_ofNat (nnn : BitVec 12) : addressWord nnn = BitVec.ofNat 16 nnn.toNat := by
  rw [← addressWord_toNat, BitVec.ofNat_toNat, BitVec.setWidth_eq]

theorem exec_ret_of_sp {j : Fin 16} (h : s.sp.toNat = j.val + 1) :
    exec .ret s = .next { s with sp := BitVec.ofNat 8 j.val, pc := s.stack[j] } := by
  rcases popPc_cases s with ⟨hsp, _⟩ | ⟨_, _, e⟩ | ⟨hsp, _⟩
  · omega
  · have hslot : s.sp.toNat - 1 = j.val := by omega
    have hsp : s.sp - 1 = BitVec.ofNat 8 j.val := by bv_omega
    refine Eq.trans e ?_
    simp only [hslot, hsp, Fin.getElem_fin]
  · omega

theorem exec_ret_of_empty (h : s.sp = 0) : exec .ret s = raise .stackUnderflow s := if_pos h

theorem exec_call_of_sp (nnn : BitVec 12) {j : Fin 16} (h : s.sp.toNat = j.val) :
    exec (.call nnn) s =
      .next { s with stack := s.stack.set j.val s.pc, sp := BitVec.ofNat 8 (j.val + 1),
                     pc := BitVec.ofNat 16 nnn.toNat } := by
  rcases pushPc_cases (addressWord nnn) s with ⟨hsp, _⟩ | ⟨_, e⟩ | ⟨hsp, _⟩
  · omega
  · have hsp : s.sp + 1 = BitVec.ofNat 8 (j.val + 1) := by bv_omega
    refine Eq.trans e ?_
    simp only [h, hsp, addressWord_eq_ofNat]
  · omega

theorem exec_call_of_full (nnn : BitVec 12) (h : s.sp = 16) : exec (.call nnn) s = raise .stackOverflow s := if_pos h

/-- Settles O1: `exec_ret_of_sp` and `exec_ret_of_empty`; the slots' bound is the invariant's. -/
theorem retPopsTheReturnAddress : Obligations.RetPopsTheReturnAddress :=
  ⟨encodes_row .ret, fun _ j h => ⟨exec_ret_of_sp h, fun hinv => hinv.stack_bound j⟩,
    fun _ hfetch hsp => faultsWith_of_exec_raises hfetch (exec_ret_of_empty hsp)⟩

/-- Settles O3: `exec_call_of_sp` and `exec_call_of_full`. -/
theorem callPushesTheReturnAddress : Obligations.CallPushesTheReturnAddress :=
  ⟨encodes_row (.call 0), fun nnn _ _ h => exec_call_of_sp nnn h,
    fun nnn _ hfetch hsp => faultsWith_of_exec_raises hfetch (exec_call_of_full nnn hsp)⟩

/-- Settles O52: with SP = j before the call, RET pops slot j, which holds the PC that CALL stored there. -/
theorem returnUndoesCall : Obligations.ReturnUndoesCall := by
  intro nnn s t u hsp hcall hstack husp
  have hj : s.sp.toNat = (⟨s.sp.toNat, hsp⟩ : Fin 16).val := rfl
  obtain rfl := Host.Outcome.next.inj ((exec_call_of_sp nnn hj).symm.trans hcall)
  have hsp' : u.sp.toNat = s.sp.toNat + 1 := by
    rw [husp]
    exact Nat.mod_eq_of_lt (by omega)
  rw [exec_ret_of_sp (j := ⟨s.sp.toNat, hsp⟩) hsp']
  simp [hstack]

/-! ## Jumps (R81, R87) -/

theorem byteWord_toNat (b : Byte) : (byteWord b).toNat = b.toNat :=
  BitVec.toNat_setWidth_of_le (by decide)

/-- The indexed target is at most 0x10FE, so the sum does not wrap. -/
theorem addressWord_add_byteWord_toNat (nnn : BitVec 12) (b : Byte) :
    (addressWord nnn + byteWord b).toNat = nnn.toNat + b.toNat := by
  rw [BitVec.toNat_add, addressWord_toNat, byteWord_toNat]
  omega

theorem exec_jump_halted {nnn : BitVec 12} (h : exec (.jp nnn) s = .next t ∨ exec (.jpV0 nnn) s = .next t) :
    t.halted = s.halted := by
  rcases h with h | h <;> cases h <;> rfl

theorem step_of_jump_to_self {nnn : BitVec 12} (h : Fetches s (.jp nnn)) (hpc : s.pc.toNat = nnn.toNat) :
    step s = .next { s with opcode := wordAt s } := by
  have htarget : addressWord nnn = s.pc := BitVec.eq_of_toNat_eq ((addressWord_toNat nnn).trans hpc.symm)
  rw [step_of_fetches h, ← htarget]
  rfl

/-- Settles O2: a jump is `State.setPc` of its target, and the clauses on the next STEP are `step_of_fetch_past_end` and
`step_of_jump_to_self`. -/
theorem jumpsGoToTheirTarget : Obligations.JumpsGoToTheirTarget :=
  ⟨encodes_row (.jp 0), encodes_row (.jpV0 0), fun nnn _ => ⟨_, rfl, addressWord_toNat nnn, rfl⟩,
    fun nnn s => ⟨_, rfl, addressWord_add_byteWord_toNat nnn (s.reg 0), rfl⟩,
    fun _ _ _ hrun hjump hpc => step_of_fetch_past_end ((exec_jump_halted hjump).trans hrun) hpc,
    fun _ _ => step_of_jump_to_self⟩

/-! ## Skips (R83 to R86) -/

theorem skips_of_eq {a b : Byte} (h : a = b) :
    skipIf (a == b) s = .next { s with pc := s.pc + 2 } ∧ skipIf (a != b) s = .next s := by
  rw [beq_iff_eq.2 h, bne_eq_false_iff_eq.2 h]
  exact ⟨rfl, rfl⟩

theorem skips_of_ne {a b : Byte} (h : a ≠ b) :
    skipIf (a == b) s = .next s ∧ skipIf (a != b) s = .next { s with pc := s.pc + 2 } := by
  rw [beq_eq_false_iff_ne.2 h, bne_iff_ne.2 h]
  exact ⟨rfl, rfl⟩

/-- Settles O4: both skips compare Vx with kk (`skips_of_eq`, `skips_of_ne`). -/
theorem skipsOnAnImmediate : Obligations.SkipsOnAnImmediate :=
  ⟨encodes_row (.seImm 0 0), encodes_row (.sneImm 0 0), fun _ _ _ => skips_of_eq, fun _ _ _ => skips_of_ne⟩

/-- Settles O5: both skips compare Vx with Vy (`skips_of_eq`, `skips_of_ne`), and a register equals itself. -/
theorem skipsOnRegisters : Obligations.SkipsOnRegisters :=
  ⟨encodes_row (.seReg 0 0), encodes_row (.sneReg 0 0), fun _ _ _ => skips_of_eq, fun _ _ _ => skips_of_ne,
    fun _ _ => skips_of_eq rfl⟩

/-! ## What moves PC (R88) -/

/-- A next state, where the answer is one that raised no fault, has the PC of `s` or one in `W`. -/
def MovesPcTo (W : Word → Prop) (r : Result) (s : State) : Prop :=
  ∀ t, r = .next t → t.halted = false → t.pc = s.pc ∨ W t.pc

section
variable {W : Word → Prop} (s)

theorem movesPcTo_of_pc_eq {t : State} (h : t.pc = s.pc) : MovesPcTo W (.next t) s := by
  rintro _ ⟨⟩ -
  exact .inl h

theorem raise_movesPcTo (c : FaultCause) : MovesPcTo W (raise c s) s := by
  rintro _ ⟨⟩ hrun
  exact nomatch hrun

theorem skipIf_movesPcTo (c : Bool) : MovesPcTo (· = s.pc + 2) (skipIf c s) s := by
  rintro _ ⟨⟩ -
  cases c with
  | false => exact .inl rfl
  | true => exact .inr rfl

theorem skipOnKey_movesPcTo (want : Bool) (x : Reg) : MovesPcTo (· = s.pc + 2) (skipOnKey want x s) s := by
  unfold skipOnKey
  split
  · exact raise_movesPcTo s _
  · exact skipIf_movesPcTo s _

theorem execWaitKey_movesPcTo (x : Reg) : MovesPcTo (· = s.pc - 2) (execWaitKey x s) s := by
  unfold execWaitKey
  split
  · rintro _ ⟨⟩ -
    exact .inr rfl
  · exact movesPcTo_of_pc_eq s rfl

theorem storeAtI_movesPcTo (bs : List Byte) : MovesPcTo W (storeAtI bs s) s := by
  rcases storeAtI_cases bs s with ⟨_, e⟩ | ⟨_, _, e⟩
  · exact e ▸ movesPcTo_of_pc_eq s rfl
  · exact e ▸ raise_movesPcTo s _

theorem execLoadRegs_movesPcTo (x : Reg) : MovesPcTo W (execLoadRegs x s) s := by
  unfold execLoadRegs
  split
  · rw [State.loadFrom_eq]
    exact movesPcTo_of_pc_eq s rfl
  · exact raise_movesPcTo s _

theorem drawPixels_movesPcTo (ps : List Nat) : MovesPcTo W (drawPixels ps s) s := by
  rcases drawPixels_cases ps s with ⟨_, e⟩ | ⟨_, e⟩
  · exact e ▸ movesPcTo_of_pc_eq s rfl
  · exact e ▸ raise_movesPcTo s _

theorem execDrw_movesPcTo (x y : Reg) (n : Nat) : MovesPcTo W (execDrw x y n s) s := by
  unfold execDrw
  split
  · exact drawPixels_movesPcTo s _
  · exact raise_movesPcTo s _

end

/-- The PCs, besides the advanced one, that R88 lets an instruction go to without a fault. -/
def PcTarget (i : Instr) (pc : Word) : Word → Prop :=
  match i with
  | .ret | .jp _ | .call _ | .jpV0 _ => fun _ => True
  | .seImm _ _ | .sneImm _ _ | .seReg _ _ | .sneReg _ _ | .skp _ | .sknp _ => (· = pc + 2)
  | .waitKey _ => (· = pc - 2)
  | _ => fun _ => False

theorem exec_movesPcTo (i : Instr) (s : State) : MovesPcTo (PcTarget i s.pc) (exec i s) s := by
  cases i with
  | ret | jp | call | jpV0 => exact fun _ _ _ => .inr trivial
  | seImm | sneImm | seReg | sneReg => exact skipIf_movesPcTo s _
  | skp | sknp => exact skipOnKey_movesPcTo s _ _
  | waitKey x => exact execWaitKey_movesPcTo s x
  | drw x y n => exact execDrw_movesPcTo s x y n
  | storeBcd | storeRegs => exact storeAtI_movesPcTo s _
  | loadRegs x => exact execLoadRegs_movesPcTo s x
  | cls | ldImm | addImm | ldReg | orReg | andReg | xorReg | addReg | subReg | shr | subnReg | shl | rnd | ldI | addI
  | ldFont | getDt | setDt | setSt => exact movesPcTo_of_pc_eq s rfl

/-- Settles O48: a PC that differs from the advanced one is in the instruction's row of the table `PcTarget`. -/
theorem onlyControlTransfersMovePc : Obligations.OnlyControlTransfersMovePc := by
  intro i s t _ hexec hrun hpc
  have htarget : PcTarget i s.pc t.pc := (exec_movesPcTo i s t hexec hrun).resolve_left hpc
  cases i <;> exact htarget

end Sys2Proof.Machine

/-! Register arithmetic and logic (`spec/41_alu.md` R89 to R101): what a result, and a result with a flag after it, does
to the registers, and the arithmetic of each operation on bytes. -/

namespace Sys2Proof.Machine

open Sys2Proof.Says

variable {s : State}

/-! ## One register written, and one register and the flag (R89) -/

theorem State.reg_setReg_self (s : State) (x : Reg) (b : Byte) : (s.setReg x b).reg x = b :=
  (State.reg_setReg s x x b).trans (if_pos rfl)

theorem State.reg_setReg_of_ne {x y : Reg} (b : Byte) (h : y ≠ x) : (s.setReg x b).reg y = s.reg y :=
  (State.reg_setReg s x y b).trans (if_neg h.symm)

theorem setsReg_setReg (x : Reg) {r b : Byte} (h : r = b) : SetsReg (.next (s.setReg x r)) s x b :=
  ⟨_, rfl, (State.reg_setReg_self s x r).trans h, fun _ => State.reg_setReg_of_ne r, rfl⟩

/-- The flag is written last, so VF holds it whatever `x` is. -/
theorem setsRegAndFlag_setResultThenFlag (x : Reg) {r b fb : Byte} {f : Bool} (hr : r = b) (hf : flagByte f = fb) :
    SetsRegAndFlag (.next (s.setResultThenFlag x r f)) s x b fb :=
  ⟨_, rfl, (State.reg_setReg_self _ vf _).trans hf,
    fun hx => ((State.reg_setReg_of_ne _ hx).trans (State.reg_setReg_self s x r)).trans hr,
    fun _ hx hflag => (State.reg_setReg_of_ne _ hflag).trans (State.reg_setReg_of_ne r hx), rfl⟩

/-! ## Bytes as numbers -/

section

variable (a b : Byte)

theorem add_eq_ofNat_mod : a + b = BitVec.ofNat 8 ((a.toNat + b.toNat) % 256) :=
  BitVec.eq_of_toNat_eq (by simp)

/-- The difference in the integers, reduced modulo 256 into 0..255. -/
theorem sub_eq_ofInt_mod : a - b = BitVec.ofInt 8 ((a.toNat - b.toNat : Int) % 256) := by
  apply BitVec.eq_of_toNat_eq
  rw [BitVec.toNat_sub, BitVec.toNat_ofInt]
  omega

theorem or_eq_ofNat : a ||| b = BitVec.ofNat 8 (a.toNat ||| b.toNat) := by
  rw [← BitVec.toNat_or, BitVec.ofNat_toNat, BitVec.setWidth_eq]

theorem and_eq_ofNat : a &&& b = BitVec.ofNat 8 (a.toNat &&& b.toNat) := by
  rw [← BitVec.toNat_and, BitVec.ofNat_toNat, BitVec.setWidth_eq]

theorem xor_eq_ofNat : a ^^^ b = BitVec.ofNat 8 (a.toNat ^^^ b.toNat) := by
  rw [← BitVec.toNat_xor, BitVec.ofNat_toNat, BitVec.setWidth_eq]

theorem shiftRight_one_eq_half : a >>> 1 = BitVec.ofNat 8 (a.toNat / 2) := by
  apply BitVec.eq_of_toNat_eq
  rw [BitVec.toNat_ushiftRight, BitVec.toNat_ofNat, Nat.shiftRight_one]
  omega

theorem shiftLeft_one_eq_double_mod : a <<< 1 = BitVec.ofNat 8 (a.toNat * 2 % 256) := by
  apply BitVec.eq_of_toNat_eq
  rw [BitVec.toNat_shiftLeft, BitVec.toNat_ofNat, Nat.shiftLeft_eq]
  omega

/-! ## Flags (R21) -/

theorem flagByte_decide (p : Prop) [Decidable p] : flagByte (decide p) = if p then 1 else 0 := by
  simp [flagByte]

/-- A bit of a byte, as the byte VF holds. -/
theorem flagByte_getLsbD (k : Nat) : flagByte (a.getLsbD k) = BitVec.ofNat 8 (a.toNat / 2 ^ k % 2) := by
  have hflag : ∀ f, flagByte f = BitVec.ofNat 8 f.toNat := by decide
  rw [hflag, BitVec.getLsbD, Nat.toNat_testBit]

theorem flagByte_lsbFlag : flagByte (lsbFlag a) = BitVec.ofNat 8 (a.toNat % 2) := by
  rw [lsbFlag, flagByte_getLsbD, Nat.pow_zero, Nat.div_one]

theorem flagByte_msbFlag : flagByte (msbFlag a) = BitVec.ofNat 8 (a.toNat / 128) := by
  rw [msbFlag, flagByte_getLsbD, Nat.mod_eq_of_lt (by omega)]
  rfl

end

/-! ## The operations (R90 to R100) -/

/-- Settles O6: both write one register. -/
theorem immediateLoadAndAdd : Obligations.ImmediateLoadAndAdd :=
  ⟨encodes_row (.ldImm 0 0), encodes_row (.addImm 0 0), fun x kk s =>
    ⟨setsReg_setReg x rfl, setsReg_setReg x (add_eq_ofNat_mod (s.reg x) kk)⟩⟩

/-- Settles O7: all four write one register, the flag not. -/
theorem copyAndLogicLeaveVfAlone : Obligations.CopyAndLogicLeaveVfAlone :=
  ⟨encodes_row (.ldReg 0 0), encodes_row (.orReg 0 0), encodes_row (.andReg 0 0), encodes_row (.xorReg 0 0),
    fun x y s =>
    ⟨setsReg_setReg x rfl, setsReg_setReg x (or_eq_ofNat (s.reg x) (s.reg y)),
      setsReg_setReg x (and_eq_ofNat (s.reg x) (s.reg y)), setsReg_setReg x (xor_eq_ofNat (s.reg x) (s.reg y))⟩⟩

/-- Settles O8: the sum, then the carry. -/
theorem addSetsTheCarryFlag : Obligations.AddSetsTheCarryFlag :=
  ⟨encodes_row (.addReg 0 0), fun x y s =>
    setsRegAndFlag_setResultThenFlag x (add_eq_ofNat_mod (s.reg x) (s.reg y)) (flagByte_decide _)⟩

/-- Settles O9: SUBN is SUB with the operands exchanged. -/
theorem subtractionsSetNotBorrow : Obligations.SubtractionsSetNotBorrow :=
  ⟨encodes_row (.subReg 0 0), encodes_row (.subnReg 0 0), fun x y s =>
    ⟨setsRegAndFlag_setResultThenFlag x (sub_eq_ofInt_mod (s.reg x) (s.reg y)) (flagByte_decide _),
      setsRegAndFlag_setResultThenFlag x (sub_eq_ofInt_mod (s.reg y) (s.reg x)) (flagByte_decide _)⟩⟩

/-- Settles O10: both shift Vx in place; neither meaning names Vy, so a word with another y does the same. -/
theorem shiftsSetTheBitShiftedOut : Obligations.ShiftsSetTheBitShiftedOut :=
  ⟨encodes_row (.shr 0 0), encodes_row (.shl 0 0), fun x _ s =>
    ⟨setsRegAndFlag_setResultThenFlag x (shiftRight_one_eq_half (s.reg x)) (flagByte_lsbFlag (s.reg x)),
      setsRegAndFlag_setResultThenFlag x (shiftLeft_one_eq_double_mod (s.reg x)) (flagByte_msbFlag (s.reg x)),
      fun _ => ⟨rfl, rfl⟩⟩⟩

/-! ## RND (R101) -/

/-- The byte of the STEP where the host gave one, else the model's free value. -/
theorem State.rndByte_eq (s : State) : s.rndByte = match s.rndIn with | some r => r | none => Config.rnd s.draws := by
  cases h : s.rndIn <;> simp [State.rndByte, h]

/-- STEP(rnd) of RND: the fetch, then Vx written with the masked input byte, the input dropped. -/
theorem stepWith_of_fetches_rnd {x : Reg} {kk : Byte} (r : Byte) (h : Fetches s (.rnd x kk)) :
    stepWith r s = .next { s.setReg x (r &&& kk) with
      opcode := wordAt s, pc := s.pc + 2, rndIn := none, draws := s.draws + 1 } := by
  have hfetch : Fetches (s.withRndIn (some r)) (.rnd x kk) := h
  rw [stepWith_eq, step_of_fetches hfetch]
  rfl

/-- Settles O11: `stepWith_of_fetches_rnd`; masking with 00 gives 0 and with FF the byte itself. -/
theorem randomByteIsMasked : Obligations.RandomByteIsMasked := by
  refine ⟨encodes_row (.rnd 0 0), fun x kk r s h => ?_⟩
  have hx : (s.setReg x (r &&& kk)).reg x = r &&& kk := State.reg_setReg_self s x _
  refine ⟨_, stepWith_of_fetches_rnd r h, hx, ?_, ?_, fun _ => State.reg_setReg_of_ne (s := s) _, rfl⟩
  · rintro rfl
    exact hx.trans BitVec.and_zero
  · rintro rfl
    exact hx.trans BitVec.and_allOnes

/-- Settles O12: no branch of RND stops, and the draw it takes is counted. -/
theorem rndCompletesOnItsInputByte : Obligations.RndCompletesOnItsInputByte := fun x kk s =>
  ⟨_, rfl, (State.reg_setReg_self s.takeRnd x _).trans (congrArg (· &&& kk) s.rndByte_eq),
    fun _ => State.reg_setReg_of_ne (s := s.takeRnd) _, rfl, rfl, rfl⟩

end Sys2Proof.Machine

/-! Index register and memory transfer (`spec/42_index_memory.md` R110 to R116): what becomes of I, and the blocks of
bytes stored from registers and loaded into them, each with its range check before the first write. -/

namespace Sys2Proof.Machine

open Sys2Proof.Says

variable {s : State} {i : Instr} {bs : List Byte} {x k : Reg}

/-! ## I (R110 to R112) -/

theorem add_byteWord_toNat (w : Word) (b : Byte) : (w + byteWord b).toNat = (w.toNat + b.toNat) % 65536 := by
  rw [BitVec.toNat_add, byteWord_toNat]

/-- The glyph address of the largest byte is 0x54B, so 16 bits hold it. -/
theorem glyphAddress_toNat (b : Byte) : (glyphAddress b).toNat = 0x050 + 5 * b.toNat :=
  Nat.mod_eq_of_lt (show 0x050 + 5 * b.toNat < 65536 by omega)

theorem glyphAddress_toNat_le (b : Byte) : (glyphAddress b).toNat ≤ 0x54B := by
  rw [glyphAddress_toNat]
  omega

/-- Settles O13: each of the three is `State.setI`, with the value that the lemma on its operand gives. -/
theorem indexRegisterInstructions : Obligations.IndexRegisterInstructions :=
  ⟨encodes_row (.ldI 0), encodes_row (.addI 0), encodes_row (.ldFont 0),
    fun nnn s => ⟨s.setI (addressWord nnn), rfl, addressWord_toNat nnn, rfl⟩,
    fun x s => ⟨s.setI (s.i + byteWord (s.reg x)), rfl, add_byteWord_toNat s.i (s.reg x), rfl⟩,
    fun x s => ⟨s.setI (glyphAddress (s.reg x)), rfl, glyphAddress_toNat (s.reg x), glyphAddress_toNat_le (s.reg x),
      rfl⟩⟩

/-! ## Stores at I (R113, R114) -/

theorem storeAtI_eq_next (hfits : s.i.toNat + bs.length ≤ 0x1000) :
    storeAtI bs s = .next (s.writeBytes s.i.toNat bs) :=
  if_pos ((dataInRange_iff s.base bs.length).2 (.inr hfits))

/-- A store of at least one byte that runs past the end of memory raises MEM_RANGE. -/
theorem storeAtI_eq_raise (hpos : 0 < bs.length) (hout : 0x1000 < s.i.toNat + bs.length) :
    storeAtI bs s = raise .memRange s := by
  rcases storeAtI_cases bs s with ⟨hfits, _⟩ | ⟨_, _, e⟩
  · omega
  · exact e

/-- Settles O14: the three digits are the bytes written; past the end `storeAtI_eq_raise`. -/
theorem bcdStoresThreeDigits : Obligations.BcdStoresThreeDigits := by
  refine ⟨encodes_row (.storeBcd 0), fun x s hi => ?_, fun x s hfetch hout =>
    faultsWith_of_exec_raises hfetch (storeAtI_eq_raise (Nat.zero_lt_succ 2) (Nat.succ_lt_succ hout))⟩
  have digit (k : Nat) (hk : k < 3) :
      ((s.writeBytes s.i.toNat (bcdDigits (s.reg x))).readByte (s.i.toNat + k)).toNat =
        (bcdDigits (s.reg x))[k].toNat := congrArg _ (s.readByte_writeBytes_inside s.i.toNat hk)
  refine ⟨_, storeAtI_eq_next (bs := bcdDigits (s.reg x)) (Nat.succ_le_succ hi),
    (digit 0 (by decide)).trans (Nat.mod_eq_of_lt ?_), (digit 1 (by decide)).trans (Nat.mod_eq_of_lt ?_),
    (digit 2 (by decide)).trans (Nat.mod_eq_of_lt ?_), fun a ha => s.readByte_writeBytes_outside ha, rfl⟩
  all_goals omega

theorem exec_storeRegs_of_fits (hi : s.i.toNat + x.val ≤ 0xFFF) :
    exec (.storeRegs x) s = .next (s.writeBytes s.i.toNat (s.regsUpTo x)) :=
  storeAtI_eq_next (by rw [State.regsUpTo_length]; omega)

theorem exec_storeRegs_of_out_of_range (hout : 0xFFF < s.i.toNat + x.val) :
    exec (.storeRegs x) s = raise .memRange s :=
  storeAtI_eq_raise (by simp) (by rw [State.regsUpTo_length]; omega)

/-- The byte at offset k of the stored block is V[k]. -/
theorem State.readByte_writeBytes_regsUpTo (s : State) (a : Nat) (hk : k ≤ x) :
    (s.writeBytes a (s.regsUpTo x)).readByte (a + k.val) = s.reg k := by
  have hlen : k.val < (s.regsUpTo x).length :=
    (Nat.lt_succ_of_le hk).trans_eq (s.regsUpTo_length x).symm
  rw [s.readByte_writeBytes_inside a hlen, s.getElem_regsUpTo]

/-- Settles O15: the block written at I is V0..Vx. -/
theorem storeRegistersAtI : Obligations.StoreRegistersAtI := by
  refine ⟨encodes_row (.storeRegs 0), fun x s hi => ⟨_, exec_storeRegs_of_fits hi,
      fun k hk => s.readByte_writeBytes_regsUpTo s.i.toNat hk, fun a ha => s.readByte_writeBytes_outside ?_, rfl⟩,
    fun x s hfetch hout => faultsWith_of_exec_raises hfetch (exec_storeRegs_of_out_of_range hout)⟩
  rw [State.regsUpTo_length]
  omega

/-! ## Loads from I (R115) -/

theorem exec_loadRegs_of_fits (hi : s.i.toNat + x.val ≤ 0xFFF) :
    exec (.loadRegs x) s = .next (s.loadFrom s.i.toNat (x.val + 1)) :=
  if_pos ((dataInRange_iff s.base (x.val + 1)).2 (.inr (Nat.succ_le_succ hi)))

theorem exec_loadRegs_of_out_of_range (hout : 0xFFF < s.i.toNat + x.val) :
    exec (.loadRegs x) s = raise .memRange s := by
  refine if_neg fun h => ?_
  have hfits : x.val + 1 = 0 ∨ s.i.toNat + (x.val + 1) ≤ 0x1000 := (dataInRange_iff s.base (x.val + 1)).1 h
  omega

theorem State.reg_loadFrom_of_le (s : State) (a : Nat) (hk : k ≤ x) :
    (s.loadFrom a (x.val + 1)).reg k = s.readByte (a + k.val) :=
  (s.reg_loadFrom a _ x.isLt k).trans (if_pos (Nat.lt_succ_of_le hk))

theorem State.reg_loadFrom_of_lt (s : State) (a : Nat) (hk : x < k) :
    (s.loadFrom a (x.val + 1)).reg k = s.reg k :=
  (s.reg_loadFrom a _ x.isLt k).trans (if_neg (Nat.not_lt.2 hk))

/-- Settles O16: the block load changes registers only, those up to Vx. -/
theorem loadRegistersFromI : Obligations.LoadRegistersFromI :=
  ⟨encodes_row (.loadRegs 0), fun x s hi => ⟨_, exec_loadRegs_of_fits hi,
      fun _ => s.reg_loadFrom_of_le s.i.toNat, fun _ => s.reg_loadFrom_of_lt s.i.toNat,
      s.loadFrom_eq s.i.toNat (x.val + 1)⟩,
    fun _ _ hfetch hout => faultsWith_of_exec_raises hfetch (exec_loadRegs_of_out_of_range hout)⟩

/-! ## The round trip (R115) -/

/-- Settles O17: the load reads the bytes at I, which the store has written with V0..Vx. -/
theorem loadReadsBackWhatStoreWrote : Obligations.LoadReadsBackWhatStoreWrote := by
  intro x s t u hi hstore hmem hui
  obtain rfl := Host.Outcome.next.inj ((exec_storeRegs_of_fits hi).symm.trans hstore)
  have hui : u.i = s.i := hui
  refine ⟨_, exec_loadRegs_of_fits (by rwa [hui]), fun k hk => ?_,
    (congrArg State.i (u.loadFrom_eq u.i.toNat (x.val + 1))).trans hui⟩
  rw [u.reg_loadFrom_of_le _ hk, State.readByte_of_mem_eq hmem, hui, s.readByte_writeBytes_regsUpTo _ hk]

end Sys2Proof.Machine

/-! Display (`spec/43_display.md` R120 to R124): what CLS and DRW do to the framebuffer and to VF, that drawing twice
undoes itself, and that no other instruction writes a pixel. -/

namespace Sys2Proof.Machine

open Sys2Proof.Says

variable {s t : State} {i : Instr} {x y : Reg} {n p : Nat}

/-! ## CLS (R120) -/

/-- Settles O18: CLS is `State.clearFb`, and an empty framebuffer reads unlit at every pixel. -/
theorem clsClearsTheFramebuffer : Obligations.ClsClearsTheFramebuffer :=
  ⟨encodes_row .cls, fun s => ⟨s.clearFb, rfl, fun _ => rfl, rfl⟩⟩

/-! ## The pixels of a sprite -/

/-- The pixels under the set bits of the sprite of DRW Vx, Vy, n (R121). -/
def State.sprite (s : State) (x y : Reg) (n : Nat) : List Nat :=
  spritePixels (anchorY (s.reg y)) (anchorX (s.reg x)) (s.spriteRows n)

theorem State.mem_sprite_iff (s : State) : p ∈ s.sprite x y n ↔ SpriteCovers s x y n p := by
  rw [State.sprite, mem_spritePixels, State.spriteRows_length]
  refine exists_congr fun r => exists_congr fun c => and_congr_right fun hr => ?_
  rw [s.spriteRows_getD n r hr]
  rfl

theorem State.sprite_nodup (s : State) : (s.sprite x y n).Nodup := spritePixels_nodup _ _ _

/-- A sprite depends on memory, I and its two anchors only. -/
theorem State.sprite_congr (hmem : t.mem = s.mem) (hi : t.i = s.i) (hx : t.reg x = s.reg x) (hy : t.reg y = s.reg y) :
    t.sprite x y n = s.sprite x y n := by
  simp only [State.sprite, State.spriteRows, State.base, State.readByte_of_mem_eq hmem, hi, hx, hy]

/-! ## The state after a draw (R121) -/

/-- The sprite's pixels flipped, and VF the collision flag. -/
def State.drawn (s : State) (x y : Reg) (n : Nat) : State :=
  (s.flipPixels (s.sprite x y n)).setFlag (s.collisionFlag (s.sprite x y n))

theorem State.pixel_drawn_of_covers (h : SpriteCovers s x y n p) : (s.drawn x y n).pixel p = s.pixel p ^^^ lit :=
  (Framebuffer.read_flipAll _ s.fb s.sprite_nodup p).trans (if_pos (s.mem_sprite_iff.2 h))

theorem State.pixel_drawn_of_not_covers (h : ¬ SpriteCovers s x y n p) : (s.drawn x y n).pixel p = s.pixel p :=
  Framebuffer.read_flipAll_of_not_mem _ s.fb (mt s.mem_sprite_iff.1 h)

theorem State.reg_drawn_of_ne (s : State) {z : Reg} (h : z ≠ 15) : (s.drawn x y n).reg z = s.reg z :=
  State.reg_setReg_of_ne (s := s.flipPixels (s.sprite x y n)) _ h

theorem State.reg_drawn_flag (s : State) :
    (s.drawn x y n).reg 15 = flagByte (s.collisionFlag (s.sprite x y n)) := State.reg_setReg_self _ vf _

theorem State.collisionFlag_sprite_iff (s : State) :
    s.collisionFlag (s.sprite x y n) = true ↔ ∃ p, SpriteCovers s x y n p ∧ s.pixel p = lit := by
  simp only [State.collisionFlag, List.any_eq_true, beq_iff_eq, State.mem_sprite_iff]

theorem flagByte_eq_one_iff (f : Bool) : flagByte f = 1 ↔ f = true := by cases f <;> decide

theorem flagByte_eq_zero_iff (f : Bool) : flagByte f = 0 ↔ ¬ f = true := by cases f <;> decide

theorem State.reg_drawn_flag_eq_one_iff (s : State) :
    (s.drawn x y n).reg 15 = 1 ↔ ∃ p, SpriteCovers s x y n p ∧ s.pixel p = lit := by
  rw [State.reg_drawn_flag, flagByte_eq_one_iff, State.collisionFlag_sprite_iff]

theorem State.reg_drawn_flag_eq_zero_iff (s : State) :
    (s.drawn x y n).reg 15 = 0 ↔ ¬ ∃ p, SpriteCovers s x y n p ∧ s.pixel p = lit := by
  rw [State.reg_drawn_flag, flagByte_eq_zero_iff, State.collisionFlag_sprite_iff]

/-! ## DRW, case by case (R121, R144) -/

/-- The sprite's bytes lie in memory. -/
abbrev State.RowsFit (s : State) (n : Nat) : Prop := n = 0 ∨ s.i.toNat + n - 1 ≤ 0xFFF

theorem dataInRange_iff_rowsFit (s : State) (n : Nat) : dataInRange s.base n = true ↔ s.RowsFit n := by
  rw [dataInRange_iff, State.base]
  unfold State.RowsFit
  omega

/-- Everything DRW can do. -/
theorem exec_drw_cases (x y : Reg) (n : Nat) (s : State) :
    (s.RowsFit n ∧ (∀ p, SpriteCovers s x y n p → p ≤ 2047) ∧ exec (.drw x y n) s = .next (s.drawn x y n)) ∨
    (¬ s.RowsFit n ∧ exec (.drw x y n) s = raise .memRange s) ∨
    (s.RowsFit n ∧ (∃ p, SpriteCovers s x y n p ∧ 2047 < p) ∧ exec (.drw x y n) s = raise .fbRange s) := by
  have hmem (p : Nat) : p ∈ s.sprite x y n ↔ SpriteCovers s x y n p := s.mem_sprite_iff
  by_cases hrows : s.RowsFit n
  · have hexec : exec (.drw x y n) s = drawPixels (s.sprite x y n) s := if_pos ((dataInRange_iff_rowsFit s n).2 hrows)
    rcases drawPixels_cases (s.sprite x y n) s with ⟨hps, e⟩ | ⟨⟨p, hp, hout⟩, e⟩
    · exact .inl ⟨hrows, fun p hp => Nat.le_of_lt_succ (hps p ((hmem p).2 hp)), hexec.trans e⟩
    · exact .inr (.inr ⟨hrows, ⟨p, (hmem p).1 hp, hout⟩, hexec.trans e⟩)
  · exact .inr (.inl ⟨hrows, if_neg (mt (dataInRange_iff_rowsFit s n).1 hrows)⟩)

theorem exec_drw_of_fits (hrows : s.RowsFit n) (hps : ∀ p, SpriteCovers s x y n p → p ≤ 2047) :
    exec (.drw x y n) s = .next (s.drawn x y n) := by
  rcases exec_drw_cases x y n s with ⟨_, _, e⟩ | ⟨hout, _⟩ | ⟨_, ⟨p, hp, hout⟩, _⟩
  · exact e
  · exact absurd hrows hout
  · exact absurd (hps p hp) (Nat.not_le.2 hout)

theorem exec_drw_of_byte_past_end (hrows : ¬ s.RowsFit n) : exec (.drw x y n) s = raise .memRange s := by
  rcases exec_drw_cases x y n s with ⟨h, _⟩ | ⟨_, e⟩ | ⟨h, _⟩
  · exact absurd h hrows
  · exact e
  · exact absurd h hrows

theorem exec_drw_of_pixel_past_end (hrows : s.RowsFit n) (hp : SpriteCovers s x y n p) (hout : 2047 < p) :
    exec (.drw x y n) s = raise .fbRange s := by
  rcases exec_drw_cases x y n s with ⟨_, hps, _⟩ | ⟨h, _⟩ | ⟨_, _, e⟩
  · exact absurd (hps p hp) (Nat.not_le.2 hout)
  · exact absurd hrows h
  · exact e

/-- Settles O19: the state is `State.drawn`. -/
theorem drawXorsTheSprite : Obligations.DrawXorsTheSprite :=
  ⟨encodes_row (.drw 0 0 0), fun x y n s hrows hps => ⟨s.drawn x y n, exec_drw_of_fits hrows hps,
    fun _ => State.pixel_drawn_of_covers, fun _ => State.pixel_drawn_of_not_covers, s.reg_drawn_flag_eq_one_iff.2,
    s.reg_drawn_flag_eq_zero_iff.2, fun _ => s.reg_drawn_of_ne, rfl⟩⟩

/-- Settles O20: `exec_drw_of_byte_past_end` and `exec_drw_of_pixel_past_end` after the fetch, which changes neither the
sprite nor I. -/
theorem drawFaultsOutOfRange : Obligations.DrawFaultsOutOfRange := by
  refine ⟨fun x y n s hfetch hpos hout => ?_, fun x y n s hfetch hrows ⟨p, hp, hout⟩ => ?_⟩
  · have hrows : ¬ s.fetched.RowsFit n := not_or.2 ⟨hpos.ne', Nat.not_le.2 hout⟩
    exact faultsWith_of_exec_raises hfetch (exec_drw_of_byte_past_end hrows)
  · exact faultsWith_of_exec_raises hfetch (exec_drw_of_pixel_past_end (s := s.fetched) hrows hp hout)

/-! ## Drawing twice (R123) -/

theorem Framebuffer.flipAll_flipAll {f : Framebuffer} {ps : List Nat} (hn : ps.Nodup)
    (hps : ∀ p ∈ ps, p < Config.fbSize) (h : Framebuffer.wf f) : (f.flipAll ps).flipAll ps = f := by
  refine Framebuffer.ext_read (Framebuffer.wf_flipAll ps hps (Framebuffer.wf_flipAll ps hps h)) h fun q => ?_
  rw [Framebuffer.read_flipAll ps _ hn, Framebuffer.read_flipAll ps f hn]
  split
  · rw [BitVec.xor_assoc, BitVec.xor_self, BitVec.xor_zero]
  · rfl

/-- A draw that raised no fault is `State.drawn`, its rows and pixels in range. -/
theorem fits_of_exec_drw (h : exec (.drw x y n) s = .next t) (ht : t.halted = false) :
    s.RowsFit n ∧ (∀ p, SpriteCovers s x y n p → p ≤ 2047) ∧ t = s.drawn x y n := by
  rcases exec_drw_cases x y n s with ⟨hrows, hps, e⟩ | ⟨_, e⟩ | ⟨_, _, e⟩
  · exact ⟨hrows, hps, Host.Outcome.next.inj (h.symm.trans e)⟩
  · obtain rfl := Host.Outcome.next.inj (h.symm.trans e)
    exact nomatch ht
  · obtain rfl := Host.Outcome.next.inj (h.symm.trans e)
    exact nomatch ht

/-- A covered pixel is lit after a draw exactly when it was unlit before. -/
theorem State.pixel_drawn_eq_lit_iff (h : SpriteCovers s x y n p) :
    (s.drawn x y n).pixel p = lit ↔ s.pixel p = 0 := by
  have hinj : s.pixel p ^^^ lit = unlit ^^^ lit ↔ s.pixel p = unlit := BitVec.xor_left_inj lit
  rw [unlit_xor_lit] at hinj
  rw [State.pixel_drawn_of_covers h]
  exact hinj

/-- Settles O21: both draws flip the same pixels, so the second undoes the first; it collides where the first lit. -/
theorem drawingTwiceRestoresThePixels : Obligations.DrawingTwiceRestoresThePixels := by
  intro x y n s t hinv _ hexec ht
  obtain ⟨hrows, hps, rfl⟩ := fits_of_exec_drw hexec ht
  refine ⟨fun t' hfb hmem (hi : t'.i = s.i) hx hy => ?_, fun hx hy => ⟨s.reg_drawn_of_ne hx, s.reg_drawn_of_ne hy⟩⟩
  have hsprite : t'.sprite x y n = s.sprite x y n := State.sprite_congr hmem hi hx hy
  have hcovers (p : Nat) : SpriteCovers t' x y n p ↔ SpriteCovers s x y n p := by
    rw [← State.mem_sprite_iff, hsprite, State.mem_sprite_iff]
  have hrestored : (t'.drawn x y n).fb = s.fb :=
    calc (t'.drawn x y n).fb = (s.fb.flipAll (s.sprite x y n)).flipAll (s.sprite x y n) :=
          congrArg₂ Framebuffer.flipAll hfb hsprite
      _ = s.fb := Framebuffer.flipAll_flipAll s.sprite_nodup
          (fun p hp => Nat.lt_succ_of_le (hps p (s.mem_sprite_iff.1 hp))) hinv.fb_wf
  refine ⟨t'.drawn x y n, exec_drw_of_fits (by rwa [State.RowsFit, hi]) fun p hp => hps p ((hcovers p).1 hp),
    fun p => congrArg (Framebuffer.read · p) hrestored, hrestored, t'.reg_drawn_flag_eq_one_iff.trans ?_⟩
  refine exists_congr fun p => (and_congr_left' (hcovers p)).trans (and_congr_right fun hp => ?_)
  have hpixel : t'.pixel p = (s.drawn x y n).pixel p := congrArg (Framebuffer.read · p) hfb
  rw [hpixel, State.pixel_drawn_eq_lit_iff hp]

/-! ## What writes the framebuffer (R124) -/

/-- A next state, where the answer is one, has the framebuffer of `s`. -/
def KeepsFb (r : Result) (s : State) : Prop := ∀ t, r = .next t → t.fb = s.fb

section
variable (s)

theorem keepsFb_next (h : t.fb = s.fb) : KeepsFb (.next t) s := by
  rintro _ ⟨⟩
  exact h

theorem raise_keepsFb (c : FaultCause) : KeepsFb (raise c s) s := keepsFb_next s rfl

theorem skipIf_keepsFb (c : Bool) : KeepsFb (skipIf c s) s := skipIf_eq c s ▸ keepsFb_next s rfl

theorem pushPc_keepsFb (target : Word) : KeepsFb (pushPc target s) s := by
  rcases pushPc_cases target s with ⟨_, e⟩ | ⟨_, e⟩ | ⟨_, e⟩
  · exact e ▸ raise_keepsFb s _
  · exact e ▸ keepsFb_next s rfl
  · simp [e, KeepsFb]

theorem popPc_keepsFb : KeepsFb (popPc s) s := by
  rcases popPc_cases s with ⟨_, e⟩ | ⟨_, _, e⟩ | ⟨_, e⟩
  · exact e ▸ raise_keepsFb s _
  · exact e ▸ keepsFb_next s rfl
  · simp [e, KeepsFb]

theorem storeAtI_keepsFb (bs : List Byte) : KeepsFb (storeAtI bs s) s := by
  rcases storeAtI_cases bs s with ⟨_, e⟩ | ⟨_, _, e⟩
  · exact e ▸ keepsFb_next s rfl
  · exact e ▸ raise_keepsFb s _

theorem execLoadRegs_keepsFb (x : Reg) : KeepsFb (execLoadRegs x s) s := by
  unfold execLoadRegs
  split
  · rw [State.loadFrom_eq]
    exact keepsFb_next s rfl
  · exact raise_keepsFb s _

theorem skipOnKey_keepsFb (want : Bool) (x : Reg) : KeepsFb (skipOnKey want x s) s := by
  unfold skipOnKey
  split
  · exact raise_keepsFb s _
  · exact skipIf_keepsFb s _

theorem execWaitKey_keepsFb (x : Reg) : KeepsFb (execWaitKey x s) s := by
  unfold execWaitKey
  split <;> exact keepsFb_next s rfl

end

/-- An instruction is CLS, or DRW, or leaves the framebuffer alone. -/
theorem exec_draws_or_keepsFb (i : Instr) (s : State) :
    (i = .cls ∨ ∃ x y n, i = .drw x y n) ∨ KeepsFb (exec i s) s := by
  cases i with
  | cls => exact .inl (.inl rfl)
  | drw x y n => exact .inl (.inr ⟨x, y, n, rfl⟩)
  | ret => exact .inr (popPc_keepsFb s)
  | call => exact .inr (pushPc_keepsFb s _)
  | seImm | sneImm | seReg | sneReg => exact .inr (skipIf_keepsFb s _)
  | skp | sknp => exact .inr (skipOnKey_keepsFb s _ _)
  | waitKey x => exact .inr (execWaitKey_keepsFb s x)
  | storeBcd | storeRegs => exact .inr (storeAtI_keepsFb s _)
  | loadRegs x => exact .inr (execLoadRegs_keepsFb s x)
  | jp | jpV0 | ldImm | addImm | ldReg | orReg | andReg | xorReg | addReg | subReg | shr | subnReg | shl | rnd | ldI
  | addI | ldFont | getDt | setDt | setSt => exact .inr (keepsFb_next s rfl)

/-- A STEP that changes the framebuffer runs CLS or DRW. -/
theorem fetches_of_step_changes_fb (h : step s = .next t) (hfb : t.fb ≠ s.fb) :
    Fetches s .cls ∨ ∃ x y n, Fetches s (.drw x y n) := by
  rcases step_cases s with ⟨_, e⟩ | ⟨_, _, e⟩ | ⟨_, _, _, e⟩ | ⟨i, hrun, hpc, hdec, e⟩
  · obtain rfl := Host.Outcome.next.inj (e.symm.trans h)
    exact absurd rfl hfb
  · obtain rfl := Host.Outcome.next.inj (e.symm.trans h)
    exact absurd rfl hfb
  · exact absurd (raise_keepsFb s.fetched _ t (e.symm.trans h)) hfb
  · have hfetch : Fetches s i := ⟨⟨hrun, hpc⟩, hdec⟩
    rcases exec_draws_or_keepsFb i s.fetched with (rfl | ⟨x, y, n, rfl⟩) | hkeeps
    · exact .inl hfetch
    · exact .inr ⟨x, y, n, hfetch⟩
    · exact absurd (hkeeps t (e.symm.trans h)) hfb

theorem load_fb (s : State) (bytes : List Byte) : (load bytes s).1.fb = s.fb := by
  unfold load
  split <;> rfl

/-- The state a STEP(rnd) leaves is that of `step` on the state with `rnd`, but for the random input. -/
theorem step_of_perform_step {font : Font} {rnd : Byte} {r : Reply} (h : perform font (.step rnd) s = .next (t, r)) :
    ∃ u, step (s.withRndIn (some rnd)) = .next u ∧ t = u.withRndIn none := by
  cases e : step (s.withRndIn (some rnd)) with
  | next u =>
    have hpair := Host.Outcome.next.inj ((perform_step_of_next font e).symm.trans h)
    exact ⟨u, rfl, (Prod.mk.inj hpair).1.symm⟩
  | fault | refused => simp [perform, stepWith_eq, e, mapNext] at h

/-- Settles O22: RESET aside, only a STEP can change the framebuffer, and `fetches_of_step_changes_fb` says which. -/
theorem onlyClsAndDrwChangeTheFramebuffer : Obligations.OnlyClsAndDrwChangeTheFramebuffer := by
  refine ⟨fun _ _ _ => rfl, fun font op s t r h hfb => ?_⟩
  cases op with
  | reset => exact .inl rfl
  | step rnd =>
    obtain ⟨u, hstep, rfl⟩ := step_of_perform_step h
    exact .inr ⟨⟨rnd, rfl⟩, fetches_of_step_changes_fb (s := s.withRndIn (some rnd)) hstep hfb⟩
  | load bytes =>
    obtain rfl : (load bytes s).1 = t := congrArg Prod.fst (Host.Outcome.next.inj h)
    exact absurd (load_fb s bytes) hfb
  | tick | keyWrite | fbRead | stRead | statusRead =>
    cases h
    exact absurd rfl hfb

end Sys2Proof.Machine

/-! Keypad and timers (`spec/44_input_timers.md` R130 to R135): the skips on a key, the key wait in its two cases and as
a STEP, and the reads and writes of the timers. -/

namespace Sys2Proof.Machine

open Sys2Proof.Says

variable {s : State} {x k : Reg}

/-! ## Skips on a key (R130, R131) -/

theorem skipOnKey_of_key (want : Bool) (h : (s.reg x).toNat = k.val) :
    skipOnKey want x s = skipIf (s.pressed k == want) s := by
  rw [skipOnKey, (keyNumber_eq_some_iff (s.reg x) k).2 h]

theorem skipOnKey_of_no_key (want : Bool) (h : 15 < (s.reg x).toNat) : skipOnKey want x s = raise .keyRange s := by
  rw [skipOnKey, (keyNumber_eq_none_iff (s.reg x)).2 h]

theorem skips_of_pressed (h : (s.reg x).toNat = k.val) (hkey : s.key[k] ≠ 0) :
    exec (.skp x) s = .next { s with pc := s.pc + 2 } ∧ exec (.sknp x) s = .next s := by
  have hpressed : s.pressed k = true := (s.pressed_iff k).2 hkey
  have hskip (want : Bool) : skipOnKey want x s = skipIf (true == want) s := hpressed ▸ skipOnKey_of_key want h
  exact ⟨hskip true, hskip false⟩

theorem skips_of_not_pressed (h : (s.reg x).toNat = k.val) (hkey : s.key[k] = 0) :
    exec (.skp x) s = .next s ∧ exec (.sknp x) s = .next { s with pc := s.pc + 2 } := by
  have hpressed : s.pressed k = false := bne_eq_false_iff_eq.2 hkey
  have hskip (want : Bool) : skipOnKey want x s = skipIf (false == want) s := hpressed ▸ skipOnKey_of_key want h
  exact ⟨hskip true, hskip false⟩

/-- Settles O23: with Vx a key the two skips go by `State.pressed`; with Vx above 15 both raise KEY_RANGE. -/
theorem skipsOnAKey : Obligations.SkipsOnAKey := by
  refine ⟨encodes_row (.skp 0), encodes_row (.sknp 0), fun _ _ _ => skips_of_pressed,
    fun _ _ _ => skips_of_not_pressed, fun x s hfetch hrange => ?_⟩
  have hraise (want : Bool) : skipOnKey want x s.fetched = raise .keyRange s.fetched :=
    skipOnKey_of_no_key (s := s.fetched) want hrange
  rcases hfetch with hskp | hsknp
  · exact faultsWith_of_exec_raises hskp (hraise true)
  · exact faultsWith_of_exec_raises hsknp (hraise false)

/-! ## The key wait (R133) -/

theorem exec_waitKey_of_lowest (x : Reg) (hkey : s.key[k] ≠ 0) (hlow : ∀ j : Reg, j < k → s.key[j] = 0) :
    exec (.waitKey x) s = .next (s.setReg x (BitVec.ofNat 8 k.val)) := by
  have hlowest : s.lowestKey = some k := (s.lowestKey_eq_some_iff k).2 ⟨hkey, hlow⟩
  rw [exec, execWaitKey, hlowest]

theorem exec_waitKey_of_none (x : Reg) (hkeys : ∀ k : Reg, s.key[k] = 0) :
    exec (.waitKey x) s = .next { s with pc := s.pc - 2 } := by
  have hnone : s.lowestKey = none := s.lowestKey_eq_none_iff.2 hkeys
  rw [exec, execWaitKey, hnone]
  rfl

/-- With no key pressed the rewind takes back the fetch's advance, so only `opcode` changes. -/
theorem step_of_waitKey_of_none (h : Fetches s (.waitKey x)) (hkeys : ∀ k : Reg, s.key[k] = 0) :
    step s = .next { s with opcode := wordAt s } := by
  rw [step_of_fetches h, exec_waitKey_of_none (s := { s with opcode := wordAt s, pc := s.pc + 2 }) x hkeys]
  simp only [BitVec.add_sub_cancel]

theorem stepReply_of_running (h : s.halted = false) : stepReply s = .stepOk :=
  if_neg (Bool.eq_false_iff.1 h)

/-- The key wait raises no fault (`waitKey_proceeds`), so its STEP replies STEP_OK. -/
theorem perform_step_of_waitKey (font : Font) (rnd : Byte) (h : Fetches s (.waitKey x)) :
    ∃ t, perform font (.step rnd) s = .next (t, .stepOk) := by
  obtain ⟨t, hexec, hhalted, _⟩ := waitKey_proceeds x (s.withRndIn (some rnd)).fetched
  have hstep : step (s.withRndIn (some rnd)) = .next t :=
    (step_of_fetches (s := s.withRndIn (some rnd)) h).trans hexec
  refine ⟨t.withRndIn none, ?_⟩
  rw [perform_step_of_next font hstep, stepReply_of_running (hhalted.trans h.1.1)]

/-- Settles O24: `exec_waitKey_of_lowest` and `exec_waitKey_of_none`, and for the STEP `step_of_waitKey_of_none` and
`perform_step_of_waitKey`. -/
theorem waitForAKey : Obligations.WaitForAKey :=
  ⟨encodes_row (.waitKey 0), fun x _ _ hkey hlow => exec_waitKey_of_lowest x hkey hlow ▸ setsReg_setReg x rfl,
    fun x _ => exec_waitKey_of_none x, fun _ _ => step_of_waitKey_of_none,
    fun font rnd _ _ => perform_step_of_waitKey font rnd⟩

/-! ## Timers (R132, R134, R135) -/

/-- Settles O25: the read is `State.setReg` of DT; the two writes are `State.setDelay` and `State.setSound` of Vx. -/
theorem timerInstructions : Obligations.TimerInstructions :=
  ⟨encodes_row (.getDt 0), encodes_row (.setDt 0), encodes_row (.setSt 0),
    fun x _ => ⟨setsReg_setReg x rfl, rfl, rfl⟩⟩

end Sys2Proof.Machine

/-! Faults, the halted state and TICK (`spec/60_exceptions.md` R140 to R147, R152): the state a fault leaves, the table of
conditions on which a STEP raises each cause, and what the host's operations do while the core is halted. -/

namespace Sys2Proof.Machine

open Sys2Proof.Says

variable {s t : State} {i : Instr} {c : FaultCause} {x y : Reg} {n : Nat}

/-! ## The table of R140 -/

/-- The condition of each row of R140, as one on the state a running core's STEP starts from. -/
def FaultCondition (s : State) : FaultCause → Prop
  | .noFault => False
  | .invalidOpcode => s.pc.toNat ≤ 0xFFE ∧ ∀ i, decode (wordAt s) ≠ .ok i
  | .stackOverflow => s.sp = 16 ∧ ∃ nnn, Fetches s (.call nnn)
  | .stackUnderflow => s.sp = 0 ∧ Fetches s .ret
  | .keyRange => ∃ x : Reg, (Fetches s (.skp x) ∨ Fetches s (.sknp x)) ∧ 15 < (s.reg x).toNat
  | .fetchRange => 0xFFE < s.pc.toNat
  | .memRange =>
    (∃ x y n, Fetches s (.drw x y n) ∧ 0 < n ∧ 0xFFF < s.i.toNat + n - 1) ∨
    (∃ x, Fetches s (.storeBcd x) ∧ 0xFFF < s.i.toNat + 2) ∨
    (∃ x : Reg, (Fetches s (.storeRegs x) ∨ Fetches s (.loadRegs x)) ∧ 0xFFF < s.i.toNat + x.val)
  | .fbRange => ∃ x y n, Fetches s (.drw x y n) ∧ s.RowsFit n ∧ ∃ p, SpriteCovers s x y n p ∧ 2047 < p

theorem not_rowsFit_iff : ¬ s.RowsFit n ↔ 0 < n ∧ 0xFFF < s.i.toNat + n - 1 := by
  unfold State.RowsFit
  omega

/-! ## A condition that holds is faulted on -/

/-- R141: the state a STEP from `s` leaves when it raises `c`. -/
def State.faulted (s : State) (c : FaultCause) : State :=
  { s with opcode := if c = .fetchRange then s.opcode else wordAt s, halted := true, faultCause := c, faultPc := s.pc }

/-- A STEP from a state in which a row of R140 applies raises that row's cause. -/
theorem step_of_faultCondition (hrun : s.halted = false) (h : FaultCondition s c) : step s = .next (s.faulted c) := by
  cases c with
  | noFault => exact h.elim
  | fetchRange => exact step_of_fetch_past_end hrun h
  | invalidOpcode =>
    obtain ⟨hpc, hword⟩ := h
    exact step_of_invalid_word ⟨hrun, hpc⟩ hword
  | stackOverflow =>
    obtain ⟨hsp, nnn, hfetch⟩ := h
    exact faultsWith_of_exec_raises hfetch (exec_call_of_full nnn hsp)
  | stackUnderflow =>
    obtain ⟨hsp, hfetch⟩ := h
    exact faultsWith_of_exec_raises hfetch (exec_ret_of_empty hsp)
  | keyRange =>
    obtain ⟨x, hskp | hsknp, hx⟩ := h
    · exact faultsWith_of_exec_raises hskp (skipOnKey_of_no_key true hx)
    · exact faultsWith_of_exec_raises hsknp (skipOnKey_of_no_key false hx)
  | memRange =>
    rcases h with ⟨x, y, n, hfetch, hout⟩ | ⟨x, hfetch, hout⟩ | ⟨x, hstore | hload, hout⟩
    · exact faultsWith_of_exec_raises hfetch (exec_drw_of_byte_past_end (s := s.fetched) (not_rowsFit_iff.2 hout))
    · exact faultsWith_of_exec_raises hfetch (storeAtI_eq_raise (Nat.zero_lt_succ 2) (Nat.succ_lt_succ hout))
    · exact faultsWith_of_exec_raises hstore (exec_storeRegs_of_out_of_range hout)
    · exact faultsWith_of_exec_raises hload (exec_loadRegs_of_out_of_range hout)
  | fbRange =>
    obtain ⟨x, y, n, hfetch, hrows, p, hp, hout⟩ := h
    exact faultsWith_of_exec_raises hfetch (exec_drw_of_pixel_past_end (s := s.fetched) hrows hp hout)

/-! ## A fault has its condition -/

/-- An answer that is a halted state has one of the causes `W`. -/
def HaltsOnlyBy (W : FaultCause → Prop) (r : Result) : Prop := ∀ t, r = .next t → t.halted = true → W t.faultCause

section
variable {W : FaultCause → Prop}

theorem next_haltsOnlyBy (h : t.halted = false) : HaltsOnlyBy W (.next t) := by
  rintro _ ⟨⟩ ht
  simp [h] at ht

theorem raise_haltsOnlyBy (h : W c) : HaltsOnlyBy W (raise c s) := by
  rintro _ ⟨⟩ _
  exact h

theorem fault_haltsOnlyBy {f : Fault} : HaltsOnlyBy W (.fault f) := nofun

variable (hrun : s.halted = false)
include hrun

theorem Proceeds.haltsOnlyBy {r : Result} (h : Proceeds r s) : HaltsOnlyBy W r := by
  obtain ⟨t, rfl, ht, _⟩ := h
  exact next_haltsOnlyBy (ht.trans hrun)

theorem pushPc_haltsOnlyBy {target : Word} (h : s.sp = 16 → W .stackOverflow) : HaltsOnlyBy W (pushPc target s) := by
  rcases pushPc_cases target s with ⟨hsp, e⟩ | ⟨_, e⟩ | ⟨_, e⟩ <;> rw [e]
  · exact raise_haltsOnlyBy (h (BitVec.eq_of_toNat_eq hsp))
  · exact next_haltsOnlyBy hrun
  · exact fault_haltsOnlyBy

theorem popPc_haltsOnlyBy (h : s.sp = 0 → W .stackUnderflow) : HaltsOnlyBy W (popPc s) := by
  rcases popPc_cases s with ⟨hsp, e⟩ | ⟨_, _, e⟩ | ⟨_, e⟩ <;> rw [e]
  · exact raise_haltsOnlyBy (h (BitVec.eq_of_toNat_eq hsp))
  · exact next_haltsOnlyBy hrun
  · exact fault_haltsOnlyBy

theorem skipOnKey_haltsOnlyBy {want : Bool} (h : 15 < (s.reg x).toNat → W .keyRange) :
    HaltsOnlyBy W (skipOnKey want x s) := by
  unfold skipOnKey
  split
  case h_1 hkey => exact raise_haltsOnlyBy (h ((keyNumber_eq_none_iff _).1 hkey))
  case h_2 => exact (skipIf_proceeds _ s).haltsOnlyBy hrun

theorem storeAtI_haltsOnlyBy {bs : List Byte} (h : 0x1000 < s.i.toNat + bs.length → W .memRange) :
    HaltsOnlyBy W (storeAtI bs s) := by
  rcases storeAtI_cases bs s with ⟨_, e⟩ | ⟨_, hout, e⟩ <;> rw [e]
  · exact next_haltsOnlyBy hrun
  · exact raise_haltsOnlyBy (h hout)

theorem loadRegs_haltsOnlyBy (h : 0xFFF < s.i.toNat + x.val → W .memRange) :
    HaltsOnlyBy W (exec (.loadRegs x) s) := by
  rcases Nat.lt_or_ge 0xFFF (s.i.toNat + x.val) with hout | hfits
  · rw [exec_loadRegs_of_out_of_range hout]
    exact raise_haltsOnlyBy (h hout)
  · rw [exec_loadRegs_of_fits hfits, s.loadFrom_eq]
    exact next_haltsOnlyBy hrun

theorem drw_haltsOnlyBy (hmem : ¬ s.RowsFit n → W .memRange)
    (hfb : s.RowsFit n → (∃ p, SpriteCovers s x y n p ∧ 2047 < p) → W .fbRange) :
    HaltsOnlyBy W (exec (.drw x y n) s) := by
  rcases exec_drw_cases x y n s with ⟨_, _, e⟩ | ⟨hrows, e⟩ | ⟨hrows, hout, e⟩ <;> rw [e]
  · exact next_haltsOnlyBy hrun
  · exact raise_haltsOnlyBy (hmem hrows)
  · exact raise_haltsOnlyBy (hfb hrows hout)

end

/-- An executed instruction raises a cause only on the cause's condition. -/
theorem exec_fetched_haltsOnlyBy (h : Fetches s i) : HaltsOnlyBy (FaultCondition s) (exec i s.fetched) := by
  have hrun : s.fetched.halted = false := h.1.1
  cases i with
  | ret => exact popPc_haltsOnlyBy hrun fun hsp => ⟨hsp, h⟩
  | call nnn => exact pushPc_haltsOnlyBy hrun fun hsp => ⟨hsp, nnn, h⟩
  | skp x => exact skipOnKey_haltsOnlyBy hrun fun hx => ⟨x, .inl h, hx⟩
  | sknp x => exact skipOnKey_haltsOnlyBy hrun fun hx => ⟨x, .inr h, hx⟩
  | drw x y n =>
    exact drw_haltsOnlyBy hrun (fun hrows => .inl ⟨x, y, n, h, not_rowsFit_iff.1 hrows⟩)
      fun hrows hout => ⟨x, y, n, h, hrows, hout⟩
  | storeBcd x => exact storeAtI_haltsOnlyBy hrun fun hout => .inr (.inl ⟨x, h, Nat.lt_of_succ_lt_succ hout⟩)
  | storeRegs x =>
    refine storeAtI_haltsOnlyBy hrun fun hout => .inr (.inr ⟨x, .inl h, ?_⟩)
    rw [State.regsUpTo_length] at hout
    exact Nat.lt_of_succ_lt_succ hout
  | loadRegs x => exact loadRegs_haltsOnlyBy hrun fun hout => .inr (.inr ⟨x, .inr h, hout⟩)
  | seImm | sneImm | seReg | sneReg => exact (skipIf_proceeds _ s.fetched).haltsOnlyBy hrun
  | waitKey x => exact (waitKey_proceeds x s.fetched).haltsOnlyBy hrun
  | cls | jp | jpV0 | ldImm | addImm | ldReg | orReg | andReg | xorReg | addReg | subReg | shr | subnReg | shl | rnd
  | ldI | addI | ldFont | getDt | setDt | setSt => exact next_haltsOnlyBy hrun

/-- A running core's STEP raises a cause only on the cause's condition. -/
theorem step_haltsOnlyBy (hrun : s.halted = false) : HaltsOnlyBy (FaultCondition s) (step s) := by
  rcases step_cases s with ⟨hhalt, _⟩ | ⟨_, hpc, e⟩ | ⟨_, hpc, ⟨e', hdec⟩, e⟩ | ⟨i, _, hpc, hdec, e⟩
  · simp [hrun] at hhalt
  · rw [e]
    rintro _ ⟨⟩ _
    exact hpc
  · exact e ▸ raise_haltsOnlyBy ⟨hpc, fun i hi => nomatch hdec.symm.trans hi⟩
  · exact e ▸ exec_fetched_haltsOnlyBy ⟨⟨hrun, hpc⟩, hdec⟩

/-! ## Each fault and its state (R140, R141, R144) -/

theorem step_faults_iff (hrun : s.halted = false) (h : step s = .next t) (c : FaultCause) :
    (t.halted = true ∧ t.faultCause = c) ↔ FaultCondition s c := by
  constructor
  · rintro ⟨hhalt, rfl⟩
    exact step_haltsOnlyBy hrun t h hhalt
  · intro hc
    obtain rfl := Host.Outcome.next.inj ((step_of_faultCondition hrun hc).symm.trans h)
    exact ⟨rfl, rfl⟩

/-- Settles O36: the right sides are the rows of `FaultCondition`. -/
theorem eachFaultHasItsCondition : Obligations.EachFaultHasItsCondition := by
  refine ⟨rfl, fun s t hrun _ hstep => ?_⟩
  have hiff := step_faults_iff hrun hstep
  exact ⟨hiff .fetchRange, hiff .invalidOpcode, hiff .stackOverflow, hiff .stackUnderflow, hiff .keyRange,
    hiff .memRange, hiff .fbRange⟩

theorem step_eq_faulted_of_halts (hrun : s.halted = false) (h : step s = .next t) (ht : t.halted = true) :
    t = s.faulted t.faultCause :=
  Host.Outcome.next.inj (h.symm.trans (step_of_faultCondition hrun (step_haltsOnlyBy hrun t h ht)))

theorem reply_of_perform_step {font : Font} {rnd : Byte} {r : Reply} (h : perform font (.step rnd) s = .next (t, r)) :
    r = stepReply t := by
  obtain ⟨u, hstep, rfl⟩ := step_of_perform_step h
  exact congrArg Prod.snd (Host.Outcome.next.inj (h.symm.trans (perform_step_of_next font hstep)))

/-- Settles O35: the faulted state is `State.faulted`, and the reply is read off it. -/
theorem faultsArePrecise : Obligations.FaultsArePrecise := fun _ _ hrun hstep ht =>
  ⟨step_eq_faulted_of_halts hrun hstep ht, fun _ _ _ _ hperform hu =>
    (reply_of_perform_step hperform).trans (if_pos hu)⟩

/-! ## The halted state (R142, R143) -/

theorem load_withHalted (bytes : List Byte) (s : State) (b : Bool) :
    load bytes { s with halted := b } = ({ (load bytes s).1 with halted := b }, (load bytes s).2) := by
  unfold load
  split <;> rfl

/-- The two states have the same halt record (R33). -/
def State.SameHaltRecord (s t : State) : Prop :=
  t.halted = s.halted ∧ t.faultCause = s.faultCause ∧ t.faultPc = s.faultPc

theorem load_sameHaltRecord (bytes : List Byte) (s : State) : s.SameHaltRecord (load bytes s).1 := by
  unfold load
  split <;> exact ⟨rfl, rfl, rfl⟩

/-- While the core is halted every operation but RESET keeps the halt record: a STEP does nothing, and the others do not
write it. -/
theorem perform_keeps_haltRecord {font : Font} {op : HostOp} {r : Reply} (hop : op ≠ .reset) (hs : s.Faulted)
    (h : perform font op s = .next (t, r)) : s.SameHaltRecord t := by
  cases op with
  | reset => exact absurd rfl hop
  | step rnd =>
    obtain ⟨u, hstep, rfl⟩ := step_of_perform_step h
    obtain rfl := Host.Outcome.next.inj ((step_of_halted (s := s.withRndIn (some rnd)) hs).symm.trans hstep)
    exact ⟨rfl, rfl, rfl⟩
  | load bytes =>
    obtain rfl : (load bytes s).1 = t := congrArg Prod.fst (Host.Outcome.next.inj h)
    exact load_sameHaltRecord bytes s
  | tick | keyWrite | fbRead | stRead | statusRead =>
    cases h
    exact ⟨rfl, rfl, rfl⟩

/-- The operations other than STEP answer a state, from any state. -/
theorem perform_answers_of_not_step {op : HostOp} (font : Font) (s : State) (hop : ∀ rnd, op ≠ .step rnd) :
    ∃ t r, perform font op s = .next (t, r) := by
  cases op with
  | step rnd => exact absurd rfl (hop rnd)
  | reset | load | tick | keyWrite | fbRead | stRead | statusRead => exact ⟨_, _, rfl⟩

/-- Only STEP and STATUS_READ look at the flag `halted`; RESET overwrites it. -/
theorem perform_withHalted {font : Font} {op : HostOp} {r : Reply} (b : Bool) (hreset : op ≠ .reset)
    (hstep : ∀ rnd, op ≠ .step rnd) (hstatus : op ≠ .statusRead) (h : perform font op s = .next (t, r)) :
    perform font op { s with halted := b } = .next ({ t with halted := b }, r) := by
  cases op with
  | reset => exact absurd rfl hreset
  | step rnd => exact absurd rfl (hstep rnd)
  | statusRead => exact absurd rfl hstatus
  | load bytes =>
    have hload : load bytes s = (t, r) := Host.Outcome.next.inj h
    rw [perform, load_withHalted, hload]
  | tick | keyWrite | fbRead | stRead =>
    cases h
    rfl

/-- Settles O37: the inert STEP is O28's first case; `perform_keeps_haltRecord` and `perform_withHalted` say what the
other operations do. -/
theorem haltIsHeldUntilReset : Obligations.HaltIsHeldUntilReset := by
  refine fun font s hs hr => ⟨fun rnd => ?_, fun op hreset hstep => ?_, ⟨_, _, rfl, rfl⟩⟩
  · obtain ⟨hinert, _⟩ := stepOperationFollowsTheCycle font rnd s hr
    exact hinert hs
  · obtain ⟨t, r, h⟩ := perform_answers_of_not_step font s hstep
    obtain ⟨hhalt, hcause, hpc⟩ := perform_keeps_haltRecord hreset hs h
    exact ⟨t, r, h, hhalt.trans hs, hcause, hpc, fun hstatus => perform_withHalted false hreset hstep hstatus h⟩

/-- A schedule without RESET keeps the halt record of a faulted state, by induction on the schedule. -/
theorem runOps_keeps_haltRecord {font : Font} {ops : List HostOp} (hops : .reset ∉ ops) (hs : s.Faulted)
    (h : runOps font ops s = .next t) : s.SameHaltRecord t := by
  induction ops generalizing s with
  | nil =>
    cases h
    exact ⟨rfl, rfl, rfl⟩
  | cons op rest ih =>
    obtain ⟨hop, hrest⟩ := not_or.1 (mt List.mem_cons.2 hops)
    rw [runOps] at h
    split at h
    case h_1 u r hperform =>
      obtain ⟨hhalt, hcause, hpc⟩ := perform_keeps_haltRecord (Ne.symm hop) hs hperform
      obtain ⟨hhalt', hcause', hpc'⟩ := ih hrest (hhalt.trans hs) h
      exact ⟨hhalt'.trans hhalt, hcause'.trans hcause, hpc'.trans hpc⟩
    all_goals cases h

/-- Settles O38: `runOps_keeps_haltRecord`. -/
theorem noReturnFromAFault : Obligations.NoReturnFromAFault := by
  intro font ops s t hops hs h
  obtain ⟨hhalt, hcause, hpc⟩ := runOps_keeps_haltRecord hops hs h
  exact ⟨hhalt.trans hs, hcause, hpc⟩

/-! ## Every instruction is executable (R147) -/

theorem exec_answers_of_legal_sp (i : Instr) (h : s.sp.toNat ≤ 16) : ∃ t, exec i s = .next t := by
  rcases exec_outcome i s with ⟨c, _, _, _, e⟩ | ⟨t, e, _⟩ | ⟨hsp, _⟩
  · exact ⟨_, e⟩
  · exact ⟨t, e⟩
  · omega

/-- Settles O40: only an SP above 16 stops an instruction; a STEP that executes none answers a state from any SP. -/
theorem everyInstructionIsExecutable : Obligations.EveryInstructionIsExecutable := by
  refine ⟨fun i s => exec_answers_of_legal_sp i, fun s hsp => ?_⟩
  rcases step_cases s with ⟨_, e⟩ | ⟨_, _, e⟩ | ⟨_, _, _, e⟩ | ⟨i, _, _, _, e⟩
  · exact ⟨_, e⟩
  · exact ⟨_, e⟩
  · exact ⟨_, e⟩
  · exact e ▸ exec_answers_of_legal_sp (s := s.fetched) i hsp

/-! ## TICK (R152) -/

theorem countDown_toNat (b : Byte) : (countDown b).toNat = b.toNat - 1 := by
  unfold countDown
  split
  case isTrue h => rw [h]; rfl
  case isFalse h => bv_omega

/-- Settles O57: each timer is `countDown` of what it was. -/
theorem tickCountsTheTimersDown : Obligations.TickCountsTheTimersDown := fun _ s =>
  ⟨tick s, rfl, countDown_toNat s.dt, countDown_toNat s.st, rfl⟩

end Sys2Proof.Machine

/-! Runs (`spec/70_reset_and_hazards.md` R166, R167): how a schedule's run splits, the earlier points of a safe run, and the
two loops that run for ever. -/

namespace Sys2Proof.Machine

open Sys2Proof.Says

variable {s t : State} {font : Font} {op : HostOp} {ops rest more : List HostOp} {r : Reply} {x : Reg}

/-! ## A run, operation by operation (R166) -/

theorem runOps_cons_of_perform (h : perform font op s = .next (t, r)) :
    runOps font (op :: rest) s = runOps font rest t := by
  rw [runOps, h]

theorem perform_of_runOps_cons (h : runOps font (op :: rest) s = .next t) :
    ∃ u r, perform font op s = .next (u, r) ∧ runOps font rest u = .next t := by
  rw [runOps] at h
  split at h
  case h_1 u r hperform => exact ⟨u, r, hperform, h⟩
  all_goals cases h

/-- A run of `ops ++ more` passes through the state in which the run of `ops` ends. -/
theorem runOps_split_of_append (h : runOps font (ops ++ more) s = .next t) :
    ∃ u, runOps font ops s = .next u ∧ runOps font more u = .next t := by
  induction ops generalizing s with
  | nil => exact ⟨s, rfl, h⟩
  | cons op rest ih =>
    obtain ⟨v, r, hperform, hrest⟩ := perform_of_runOps_cons h
    obtain ⟨u, hu, hmore⟩ := ih hrest
    exact ⟨u, (runOps_cons_of_perform hperform).trans hu, hmore⟩

/-- A property of states that every operation of the schedule keeps holds where the run of the schedule ends. -/
theorem runOps_keeps {P : State → Prop}
    (hop : ∀ op ∈ ops, ∀ s, P s → ∃ t r, perform font op s = .next (t, r) ∧ P t) (hs : P s) :
    ∃ t, runOps font ops s = .next t ∧ P t := by
  induction ops generalizing s with
  | nil => exact ⟨s, rfl, hs⟩
  | cons op rest ih =>
    obtain ⟨hfirst, hlater⟩ := List.forall_mem_cons.1 hop
    obtain ⟨u, r, hperform, hu⟩ := hfirst s hs
    obtain ⟨t, ht, hPt⟩ := ih hlater hu
    exact ⟨t, (runOps_cons_of_perform hperform).trans ht, hPt⟩

/-- Settles O39: were the state after `ops` faulted, the rest of the run would keep its halt record
(`runOps_keeps_haltRecord`) and end faulted too. -/
theorem safeRunsHaveSafePrefixes : Obligations.SafeRunsHaveSafePrefixes := by
  rintro font ops more s hreset ⟨t, hrun, hsafe⟩
  obtain ⟨u, hops, hmore⟩ := runOps_split_of_append hrun
  refine ⟨u, hops, fun hfaulted => hsafe ?_⟩
  obtain ⟨hhalt, _⟩ := runOps_keeps_haltRecord (mt (List.mem_append_right ops) hreset) hfaulted hmore
  exact hhalt.trans hfaulted

/-! ## A jump to itself (R81, R166) -/

section
variable {M : Host.Core} {a b : M.State}

theorem core_run_succ_of_step (h : M.step a = .next b) (k : Nat) : M.run (k + 1) a = M.run k b := by
  rw [Host.Core.run, h]

theorem core_run_of_step_to_self (h : M.step a = .next a) (k : Nat) : M.run k a = .next a := by
  induction k with
  | zero => rfl
  | succ k ih => exact (core_run_succ_of_step h k).trans ih

end

/-- Settles O53: the first STEP sets `opcode` to the word at PC, and each later one sets it to that word again. -/
theorem jumpToSelfRunsForEver : Obligations.JumpToSelfRunsForEver := by
  intro nnn s k hfetch hpc
  have hfirst : step s = .next { s with opcode := wordAt s } := step_of_jump_to_self hfetch hpc
  have hlater : step { s with opcode := wordAt s } = .next { s with opcode := wordAt s } :=
    step_of_jump_to_self (s := { s with opcode := wordAt s }) hfetch hpc
  have hrun : core.run (k + 1) s = .next { s with opcode := wordAt s } :=
    (core_run_succ_of_step (M := core) hfirst k).trans (core_run_of_step_to_self (M := core) hlater k)
  obtain ⟨⟨hhalted, _⟩, _⟩ := hfetch
  exact ⟨hrun, hhalted, rfl⟩

/-! ## A key wait with no key pressed (R133, R167) -/

/-- `t` is `s` but for `opcode`, the timers and the random input, which is all that TICKs and the STEPs of a key wait
write. -/
def State.SameButOpcodeAndTimers (s t : State) : Prop :=
  ∃ w d b r, t = { s with opcode := w, dt := d, st := b, rndIn := r }

/-- TICK writes the timers, and the STEP rewinds PC to the wait; neither touches what makes the next STEP do so. -/
theorem perform_keeps_keyWait (hfetch : Fetches s (.waitKey x)) (hkeys : ∀ k : Reg, s.key[k] = 0)
    (hop : op = .tick ∨ ∃ rnd, op = .step rnd) (ht : s.SameButOpcodeAndTimers t) :
    ∃ u r, perform font op t = .next (u, r) ∧ s.SameButOpcodeAndTimers u := by
  obtain ⟨w, d, b, i, rfl⟩ := ht
  rcases hop with rfl | ⟨rnd, rfl⟩
  · exact ⟨_, _, rfl, _, _, _, _, rfl⟩
  · have hstep := step_of_waitKey_of_none
      (s := { s with opcode := w, dt := d, st := b, rndIn := some rnd }) hfetch hkeys
    exact ⟨_, _, perform_step_of_next font hstep, _, _, _, _, rfl⟩

/-- Settles O54: by `perform_keeps_keyWait` the schedule ends in the first state but for `opcode`, the timers and
`rndIn`, and there the next STEP fetches the key wait again. -/
theorem keyWaitRunsForEver : Obligations.KeyWaitRunsForEver := by
  intro font x s ops hfetch hkeys hops
  obtain ⟨t, hrun, w, d, b, i, rfl⟩ : ∃ t, runOps font ops s = .next t ∧ s.SameButOpcodeAndTimers t :=
    runOps_keeps (fun op hop _ ht => perform_keeps_keyWait hfetch hkeys (hops op hop) ht) ⟨_, _, _, _, rfl⟩
  have hhalted : s.halted = false := hfetch.1.1
  exact ⟨_, hrun, hhalted, rfl, rfl, rfl, rfl, rfl, rfl, rfl, rfl, rfl, hfetch⟩

end Sys2Proof.Machine
